-- ==== Sys2Proof/Word.lean ====
section
/-! DEFINITION. The word types of the block: a byte (table entry, buffer cell, character code; rules R6, R7) and
the 24-bit command word (rule R59). Everything is unsigned (rule R7). -/

namespace Sys2Proof

/-- A table entry, a buffer cell, a character code, a position, a level: 8 bits, unsigned (rules R6, R7). -/
abbrev Byte := BitVec 8

/-- The command word `op[23:20] z[19:16] a[15:8] b[7:0]` (rule R59). -/
abbrev CommandWord := BitVec 24

end Sys2Proof
end

