-- ==== Sys2Proof/Syntax.lean ====
section
/-! DEFINITION. The twelve operations of rule R60, one constructor per row of spec/opcode_table.json. -/

namespace Sys2Proof

/-- An operation with its operands as rule R59 assembles them. -/
inductive Instr where
  /-- SETUP (rule R102). -/
  | setup
  /-- ENCODE_AT start_pos, text (rule R80). -/
  | encodeAt (startPos : Byte) (text : List Byte)
  /-- ENCODE text (rule R82). -/
  | encode (text : List Byte)
  /-- REFRESH (rule R100). -/
  | refresh
  /-- SET_INTENSITY level (rule R103). -/
  | setIntensity (level : Byte)
  /-- SET_ON enable (rule R104). -/
  | setOn (enable : Bool)
  /-- GLYPH_FOR c (rule R70). -/
  | glyphFor (c : Byte)
  /-- DOT_FOR c (rule R71). -/
  | dotFor (c : Byte)
  /-- GREMAP v (rule R72). -/
  | gremap (v : Byte)
  /-- DREMAP v (rule R73). -/
  | dremap (v : Byte)
  /-- SHIFT_OUT b (rule R90). -/
  | shiftOut (b : Bool)
  /-- DRIVE_POSITION position, bits (rule R91). -/
  | drivePosition (position bits : Byte)
  deriving DecidableEq, Repr

/-- The text operand that follows the command word (rule R61); empty for the ten other operations. -/
def Instr.text : Instr → List Byte
  | .setup => []
  | .encodeAt _ text => text
  | .encode text => text
  | .refresh => []
  | .setIntensity _ => []
  | .setOn _ => []
  | .glyphFor _ => []
  | .dotFor _ => []
  | .gremap _ => []
  | .dremap _ => []
  | .shiftOut _ => []
  | .drivePosition _ _ => []

end Sys2Proof
end

