-- ==== Sys2Proof/WellFormed.lean ====
section
/-! DEFINITION. Which operations have a command word: the text must be countable by the 8-bit field `len`
(rules R59, R61). Every other operand fills its field exactly. -/

namespace Sys2Proof

/-- The one way an operation has no command word. -/
inductive IllFormed where
  /-- The text has more than 255 characters, so `len` cannot count it (rule R61). -/
  | textTooLong
  deriving DecidableEq, Repr

/-- The check, by name. -/
def Instr.check (i : Instr) : Except IllFormed Unit :=
  if i.text.length ≤ 255 then .ok () else .error .textTooLong

/-- `i` has a command word: `len` counts its text (rule R61, "at most 255 characters"). -/
abbrev Instr.WellFormed (i : Instr) : Prop := i.text.length ≤ 255

end Sys2Proof
end

