-- ==== Sys2Proof/Decode.lean ====
section
/-! DEFINITION. The command port: taking one command from the bytes the host has presented (rules R59, R61, R64, R65),
total on any bytes, and the encoder written from the same rules. A word that is not legal is rejected by name. -/

namespace Sys2Proof

/-! ### The word on the port -/

/-- The three bytes of a command word in port order. DESIGN CHOICE (log 1): most significant byte first. -/
def commandBytes (w : CommandWord) : List Byte :=
  [w.extractLsb' 16 8, w.extractLsb' 8 8, w.extractLsb' 0 8]

/-- The command word that three port bytes carry. -/
def commandWord (b2 b1 b0 : Byte) : CommandWord := b2 ++ b1 ++ b0

/-- Field `op`, bits 23..20 (rule R59). -/
def opField (w : CommandWord) : BitVec 4 := w.extractLsb' 20 4
/-- Field `z`, bits 19..16 (rule R59). -/
def zField (w : CommandWord) : BitVec 4 := w.extractLsb' 16 4
/-- Field `a`, bits 15..8 (rule R59). -/
def aField (w : CommandWord) : Byte := w.extractLsb' 8 8
/-- Field `b`, bits 7..0 (rule R59). -/
def bField (w : CommandWord) : Byte := w.extractLsb' 0 8

/-- How many text bytes follow the word: `len` for `op` 0x1 and 0x2, legal or not (rules R61, R64), else none. -/
def textLength (w : CommandWord) : Nat :=
  if opField w = 0x1#4 ∨ opField w = 0x2#4 then (bField w).toNat else 0

/-! ### Decoding -/

/-- Why rule R64 calls a word illegal. Which name is given when several hold is the model's own order (log 27);
the block reports ILLEGAL for all of them. -/
inductive IllegalReason where
  /-- `op` is 0x6, 0x7, 0xE or 0xF. -/
  | reservedOpcode
  /-- `z` is not 0000. -/
  | nonzeroZ
  /-- field `a` must be 0x00 and is not. -/
  | nonzeroA
  /-- field `b`, or its bits 7..1, must be 0 and is not. -/
  | nonzeroB
  deriving DecidableEq, Repr

/-- `i` if field `a` is 0x00. -/
def needA0 (w : CommandWord) (i : Except IllegalReason Instr) : Except IllegalReason Instr :=
  if aField w = 0x00#8 then i else .error .nonzeroA

/-- `i` if field `b` is 0x00. -/
def needB0 (w : CommandWord) (i : Instr) : Except IllegalReason Instr :=
  if bField w = 0x00#8 then .ok i else .error .nonzeroB

/-- `f` of bit 0 of field `b` if bits 7..1 are 0. -/
def needBit (w : CommandWord) (f : Bool → Instr) : Except IllegalReason Instr :=
  if bField w &&& 0xFE#8 = 0x00#8 then .ok (f ((bField w).getLsbD 0)) else .error .nonzeroB

/-- The operation a word and the text bytes after it stand for (rules R59, R60), or why it is illegal (rule R64). -/
def decodeWord (w : CommandWord) (text : List Byte) : Except IllegalReason Instr :=
  if zField w ≠ 0x0#4 then .error .nonzeroZ
  else match opField w with
    | 0x0#4 => needA0 w (needB0 w .setup)
    | 0x1#4 => .ok (.encodeAt (aField w) text)
    | 0x2#4 => needA0 w (.ok (.encode text))
    | 0x3#4 => needA0 w (needB0 w .refresh)
    | 0x4#4 => needA0 w (.ok (.setIntensity (bField w)))
    | 0x5#4 => needA0 w (needBit w .setOn)
    | 0x8#4 => needA0 w (.ok (.glyphFor (bField w)))
    | 0x9#4 => needA0 w (.ok (.dotFor (bField w)))
    | 0xA#4 => needA0 w (.ok (.gremap (bField w)))
    | 0xB#4 => needA0 w (.ok (.dremap (bField w)))
    | 0xC#4 => needA0 w (needBit w .shiftOut)
    | 0xD#4 => .ok (.drivePosition (aField w) (bField w))
    | _ => .error .reservedOpcode

/-- What the port holds for the block to take. -/
inductive Fetched where
  /-- A legal command, and the bytes after it. -/
  | instr (i : Instr) (rest : List Byte)
  /-- An illegal word, and the bytes after it and after the text that is discarded with it (rule R64). -/
  | illegal (reason : IllegalReason) (rest : List Byte)
  /-- Fewer bytes than one whole command: the host has not finished presenting it (log 2). -/
  | incomplete
  deriving DecidableEq, Repr

/-- Take one command: the word, then the text bytes its length asks for (rules R61, R65). -/
def fetch : List Byte → Fetched
  | b2 :: b1 :: b0 :: after =>
    let w := commandWord b2 b1 b0
    let n := textLength w
    if after.length < n then .incomplete
    else match decodeWord w (after.take n) with
      | .ok i => .instr i (after.drop n)
      | .error e => .illegal e (after.drop n)
  | _ => .incomplete

/-! ### Encoding -/

/-- The word `op`, `z` = 0000, `a`, `b` (rule R59). -/
def packWord (op : BitVec 4) (a b : Byte) : CommandWord := op ++ 0x0#4 ++ a ++ b

/-- One bit as a byte, bits 7..1 zero. -/
def bitByte (b : Bool) : Byte := if b then 0x01#8 else 0x00#8

/-- The command word of an operation (rules R59, R60); `len` of a text beyond 255 characters does not fit. -/
def encodeWord : Instr → CommandWord
  | .setup => packWord 0x0#4 0x00#8 0x00#8
  | .encodeAt startPos text => packWord 0x1#4 startPos (BitVec.ofNat 8 text.length)
  | .encode text => packWord 0x2#4 0x00#8 (BitVec.ofNat 8 text.length)
  | .refresh => packWord 0x3#4 0x00#8 0x00#8
  | .setIntensity level => packWord 0x4#4 0x00#8 level
  | .setOn enable => packWord 0x5#4 0x00#8 (bitByte enable)
  | .glyphFor c => packWord 0x8#4 0x00#8 c
  | .dotFor c => packWord 0x9#4 0x00#8 c
  | .gremap v => packWord 0xA#4 0x00#8 v
  | .dremap v => packWord 0xB#4 0x00#8 v
  | .shiftOut b => packWord 0xC#4 0x00#8 (bitByte b)
  | .drivePosition position bits => packWord 0xD#4 position bits

/-- The bytes of an operation on the port: its word, then its text, `text[0]` first (rule R61). -/
def encode (i : Instr) : List Byte := commandBytes (encodeWord i) ++ i.text

/-! ### The operation table as data -/

/-- A row of spec/opcode_table.json: a word is the row's when its bits under `mask` are `pattern`. -/
structure OpRow where
  mnemonic : String
  mask : CommandWord
  pattern : CommandWord
  deriving DecidableEq, Repr

/-- The word is the row's. -/
def OpRow.holds (r : OpRow) (w : CommandWord) : Bool := w &&& r.mask == r.pattern

/-- spec/opcode_table.json, its rows in its order. -/
def opcodeTable : List OpRow :=
  [⟨"SETUP", 0xFFFFFF#24, 0x000000#24⟩,
   ⟨"ENCODE_AT", 0xFF0000#24, 0x100000#24⟩,
   ⟨"ENCODE", 0xFFFF00#24, 0x200000#24⟩,
   ⟨"REFRESH", 0xFFFFFF#24, 0x300000#24⟩,
   ⟨"SET_INTENSITY", 0xFFFF00#24, 0x400000#24⟩,
   ⟨"SET_ON", 0xFFFFFE#24, 0x500000#24⟩] ++
  [⟨"GLYPH_FOR", 0xFFFF00#24, 0x800000#24⟩,
   ⟨"DOT_FOR", 0xFFFF00#24, 0x900000#24⟩,
   ⟨"GREMAP", 0xFFFF00#24, 0xA00000#24⟩,
   ⟨"DREMAP", 0xFFFF00#24, 0xB00000#24⟩,
   ⟨"SHIFT_OUT", 0xFFFFFE#24, 0xC00000#24⟩,
   ⟨"DRIVE_POSITION", 0xFF0000#24, 0xD00000#24⟩]

/-- The mnemonic of an operation (rule R60). -/
def mnemonicOf : Instr → String
  | .setup => "SETUP"
  | .encodeAt _ _ => "ENCODE_AT"
  | .encode _ => "ENCODE"
  | .refresh => "REFRESH"
  | .setIntensity _ => "SET_INTENSITY"
  | .setOn _ => "SET_ON"
  | .glyphFor _ => "GLYPH_FOR"
  | .dotFor _ => "DOT_FOR"
  | .gremap _ => "GREMAP"
  | .dremap _ => "DREMAP"
  | .shiftOut _ => "SHIFT_OUT"
  | .drivePosition _ _ => "DRIVE_POSITION"

/-! ### A table word laid out on the port -/

/-- The bytes of the command whose bits are `w`, numbered as spec/opcode_table.json numbers them (bit 0 the least
significant bit of the 24-bit word; text byte k is bits 31+8k..24+8k), every bit from `nbits` up being 0. -/
def tableBytes (nbits w : Nat) : List Byte :=
  let v := w % 2 ^ nbits
  let word : CommandWord := BitVec.ofNat 24 v
  commandBytes word ++ (List.range (textLength word)).map (fun k => BitVec.ofNat 8 (v >>> (24 + 8 * k)))

/-- The operation the decoder reads from a table word. -/
def decodeTableWord (nbits w : Nat) : Option Instr :=
  match fetch (tableBytes nbits w) with
  | .instr i _ => some i
  | .illegal _ _ => none
  | .incomplete => none

end Sys2Proof
end

