-- ==== Sys2Proof/Config.lean ====
section
/-! DEFINITION. Config: the fixed values of rule R6 as named constants (93_implementation_defined.md U19), and the open
parameters of rules R6 and R26 as constants WITHOUT A BODY, so that no proof can use a value of theirs. -/

namespace Sys2Proof.Config

/-! ### Fixed values (rule R6) -/

/-- `NCELL`: buffer cells, indices 0..4. -/
abbrev nCell : Nat := 5
/-- `COLON`: index of the colon/dot cell. -/
abbrev colon : Nat := 2
/-- `NGLYPH`: entries per table. -/
abbrev nGlyph : Nat := 95
/-- `CH_LO`: the first character with a table entry. -/
abbrev chLo : Nat := 0x20
/-- `CH_HI`: the last character with a table entry. -/
abbrev chHi : Nat := 0x7E
/-- `SENTINEL`: the "no representation" pattern. -/
abbrev sentinel : Byte := 0x00#8
/-- `DP_ONLY`: the cell value that arms the skinny-1 merge. -/
abbrev dpOnly : Byte := 0b00000001#8
/-- `CH_ONE`: the character that merges. PRESUMED (log 25): ASCII gives '1' the code 0x31 (93 K1). -/
abbrev chOne : Byte := 0x31#8
/-- `NSEL`: digit-select bits per frame. -/
abbrev nSel : Nat := 5
/-- `NDATA`: data bits per frame. -/
abbrev nData : Nat := 9
/-- `BLANK_POS`: position of REFRESH's trailing pass. -/
abbrev blankPos : Byte := 6#8
/-- `T_BIT_MIN`: the minimum bit-delay in nanoseconds. -/
abbrev tBitMin : Nat := 300
/-- `T_UNIT`: one microsecond unit of a settle delay, in nanoseconds (rule R101, D14). -/
abbrev tUnit : Nat := 1000
/-- The settle delays after positions 0, 1, 2, 3, 4, in microsecond units (rule R100). -/
abbrev settle : List Nat := [5000, 2000, 2000, 2000, 5000]

/-! ### Open parameters (rules R6, R26) -/

/-- Free bytes behind `GLYPH_ROM` (D4; log 4), indexed by the table index. -/
opaque glyphEntry : Nat → Byte
/-- `DOT_ROM` (D4; log 4), indexed by the table index; unconstrained (rule R17). -/
opaque dotEntry : Nat → Byte
/-- `BUF_RESET` (D11; log 5), indexed by the cell. -/
opaque bufReset : Nat → Byte
/-- `intensity` after the n-th reset, unspecified (D13; log 7). -/
opaque intensityReset : Nat → Byte
/-- `on` after the n-th reset, unspecified (D13; log 7). -/
opaque onReset : Nat → Bool
/-- By how many nanoseconds the bit-delay actually used exceeds its minimum (D14; log 20). DESIGN CHOICE (log 20): a
whole number of nanoseconds; rule R6 gives `T_BIT >= 300 ns` and no granularity of time. -/
opaque tBitExtra : Nat
/-- `T_UPDATE`, the host's update interval; no rule reads it (rules R6, R146). DESIGN CHOICE (log 20): a whole number. -/
opaque tUpdate : Nat

/-- `T_BIT`, at least 300 ns (rule R6), in whole nanoseconds (DESIGN CHOICE, log 20). -/
def tBit : Nat := tBitMin + tBitExtra

/-- Entry `i` of `GLYPH_ROM`: free but for rule R16 (a), entry 0x00 is 0x00, and (b), bits 6..0 of entry 0x0E are
0000001 (its bit 7 stays free). -/
def glyphRomEntry (i : Nat) : Byte :=
  if i = 0x00 then sentinel else if i = 0x0E then (glyphEntry i &&& 0x80#8) ||| dpOnly else glyphEntry i

end Sys2Proof.Config
end

