-- ==== Sys2Proof/Machine/State.lean ====
section
/-! DEFINITION. The state of the block (rules R10, R25), the events of its output trace and the result record
(rules R8, R62), and the machine right after reset. Plain data throughout. -/

namespace Sys2Proof.Machine

/-- The level of an output line (rule R18): low is 0, high is 1, U is "nothing has written this line since reset,
level unknown". -/
inductive Level where
  | U
  | low
  | high
  deriving DecidableEq, Repr

/-- The three output lines (rule R18): strobe, clock, data. -/
inductive Pin where
  | STB
  | CLK
  | DAT
  deriving DecidableEq, Repr

/-- The levels of the three lines. -/
structure Pins where
  stb : Level
  clk : Level
  dat : Level
  deriving DecidableEq, Repr

/-- One event of the output trace (rule R8). -/
inductive Event where
  /-- `PIN(p, b)`: the block wrote level `b` to line `p`. -/
  | pin (p : Pin) (b : Bool)
  /-- `WAIT_BIT`: one bit-delay, at least 300 ns. -/
  | waitBit
  /-- `WAIT_US(n)`: a settle delay of n microsecond units. -/
  | waitUs (n : Nat)
  deriving DecidableEq, Repr

/-- A condition event (rule R111). -/
inductive Condition where
  /-- NOREP: the character has no representation; with the character and the cell index (cursor) at that moment. -/
  | norep (c : Byte) (cell : Nat)
  /-- TOOLONG: a character met `cursor >= 5`. -/
  | toolong
  /-- ILLEGAL: the command word is illegal. -/
  | illegal
  /-- NOTCONF: a pin-writing operation before SETUP. -/
  | notconf
  deriving DecidableEq, Repr

/-- The result record of one operation (rule R62). -/
structure Result where
  value : Byte
  found : Bool
  conditions : List Condition
  deriving DecidableEq, Repr

/-- The Display Buffer: exactly 5 byte cells (rule R11). -/
abbrev Buf := Vector Byte 5

/-- A read-only table: exactly 95 entries, entry `i` for character `0x20 + i` (rules R16, R17). -/
abbrev Rom := Vector Byte 95

/-- The state. The first ten fields are the spec's (rules R10, R22, R25), the last five the model's own record of
the block's boundary (rules R8, R61, R130; log 2, 7, 9, 10). -/
structure State where
  /-- `buf[0..4]` (rule R11). -/
  buf : Buf
  /-- `pin[STB]`, `pin[CLK]`, `pin[DAT]` (rule R18). -/
  pins : Pins
  /-- The pin-mode flag (rule R19). -/
  configured : Bool
  /-- Inert configuration (rule R20). -/
  intensity : Byte
  /-- Inert configuration, the display-enable flag (rule R21). -/
  on : Bool
  /-- An operation is running, no command is accepted (rule R22; log 8). -/
  busy : Bool
  /-- `GLYPH_ROM`, never written (rule R16; log 4). -/
  glyphRom : Rom
  /-- `DOT_ROM`, never written (rule R17; log 4). -/
  dotRom : Rom
  /-- Command bytes presented by the host and not yet taken, next byte first (rule R61; log 2). -/
  pending : List Byte
  /-- The host asks for the reset event before the next operation (rule R130; log 9). -/
  resetRequest : Bool
  /-- How many resets there have been: the argument of the free reset values (log 7). -/
  resets : Nat
  /-- The concatenated output traces, oldest event first (rule R8; log 10). -/
  trace : List Event
  /-- The result records, oldest first (rules R8, R62; log 10). -/
  results : List Result
  deriving DecidableEq, Repr

/-- Why the machine stops: never. "No trap is ever taken" (rule R115), "all failure modes degrade to partial/blank
rendering" (rule R110): there is no constructor, so no step of the model faults. -/
inductive Fault where
  deriving DecidableEq, Repr

/-- Why an operation has no meaning. -/
inductive Refusal where
  /-- Raised by an arm of `exec` whose operation has no meaning yet; no arm is left in this model. Safe. -/
  | notModelled (mnemonic : String)
  deriving DecidableEq, Repr

/-- `BUF_RESET` (rule R25, D11; log 5): free. -/
def bufAtReset : Buf :=
  #v[Config.bufReset 0, Config.bufReset 1, Config.bufReset 2, Config.bufReset 3, Config.bufReset 4]

/-- `PIN_RESET`, the default (U, U, U) (rule R25, D12; log 6). -/
def pinsAtReset : Pins := ⟨.U, .U, .U⟩

/-- The machine right after its first reset (rules R25, R130): nothing presented, nothing sent, nothing reported. -/
def State.reset : State where
  buf := bufAtReset
  pins := pinsAtReset
  configured := false
  intensity := Config.intensityReset 0
  on := Config.onReset 0
  busy := false
  glyphRom := Vector.ofFn (fun i => Config.glyphRomEntry i.val)
  dotRom := Vector.ofFn (fun i => Config.dotEntry i.val)
  pending := []
  resetRequest := false
  resets := 1
  trace := []
  results := []

end Sys2Proof.Machine
end

