-- ==== Sys2Proof/Machine/Ops.lean ====
section
/-! DEFINITION. The named operations over the state: the four spaces of rule R30 (buffer cells, tables, pins), the
output trace (rule R8), the result record (rule R62), refusing an operation (rules R116, R117), and the reset event
(rule R130). The block takes no exception (rule R115): `refuse` is the one shared operation that stands in that place. -/

namespace Sys2Proof.Machine

/-! ### BUF and the tables -/

/-- Read of cell `i` (rule R8). No rule forms an index above 4 (rule R32); there this total reading gives 0. -/
def readCell (buf : Buf) (i : Nat) : Byte := buf.getD i 0x00#8

/-- Write of cell `i`: "writes beyond 4 are rejected" (rules R8, R32). -/
def writeCell (buf : Buf) (i : Nat) (v : Byte) : Buf := buf.setIfInBounds i v

/-- `MemRead(space, idx, 1)`: one byte of a read-only table, `0 <= idx <= 94` (rules R8, R31). -/
def memRead (rom : Rom) (idx : Fin 95) : Byte := rom[idx]

/-! ### PIN and the trace -/

/-- The level that a written bit gives a line (rule R18). -/
def levelOf (b : Bool) : Level := if b then .high else .low

/-- `pin[p] <- b` (rule R18). -/
def setPin (p : Pin) (b : Bool) (pins : Pins) : Pins :=
  match p with
  | .STB => { pins with stb := levelOf b }
  | .CLK => { pins with clk := levelOf b }
  | .DAT => { pins with dat := levelOf b }

/-- What an event does to the lines: a pin write sets its line, a delay none. -/
def eventPins (e : Event) (pins : Pins) : Pins :=
  match e with
  | .pin p b => setPin p b pins
  | .waitBit => pins
  | .waitUs _ => pins

/-- One event: it is appended to the trace and has its effect on the lines (rules R8, R18). -/
def emit (e : Event) (s : State) : State :=
  { s with pins := eventPins e s.pins, trace := s.trace ++ [e] }

/-- A list of events, first to last. -/
def emitAll (es : List Event) (s : State) : State := es.foldl (fun s e => emit e s) s

/-- `PinWrite(p, b)`: always an event, whether or not the level changes (rule R18). -/
def pinWrite (p : Pin) (b : Bool) (s : State) : State := emit (.pin p b) s

/-- `Delay(BIT)` (rule R8). -/
def delayBit (s : State) : State := emit .waitBit s

/-- `Delay(US(n))` (rule R8). -/
def delayUs (n : Nat) (s : State) : State := emit (.waitUs n) s

/-! ### Ending an operation -/

/-- The operation ends and reports its result record (rule R62). -/
def complete (r : Result) (s : State) : State := { s with results := s.results ++ [r] }

/-- The result of an operation with no result value and no condition. -/
def noResult : Result := ⟨0x00#8, false, []⟩

/-- `refuse <Condition>`: the operation ends at once, result `(0, found = 0, [condition])`, no other state change and
an empty trace (rules R8, R116, R117). -/
def refuse (c : Condition) (s : State) : State := complete ⟨0x00#8, false, [c]⟩ s

/-- A pin-writing operation: refused with NOTCONF while `configured` is 0 (rules R19, R117), else run and ended with
no result value. The test is made once, at the start (rule R107). -/
def whenConfigured (act : State → State) (s : State) : State :=
  if s.configured then complete noResult (act s) else refuse .notconf s

/-! ### Reset -/

/-- The reset event (rule R130): every piece of state to its value in rule R25, no pin event, no delay, no
condition, the tables unchanged. The host's commands not yet taken, and what was sent and reported before, stay
(DESIGN CHOICE, log 9). -/
def applyReset (s : State) : State :=
  { s with
    buf := bufAtReset
    pins := pinsAtReset
    configured := false
    intensity := Config.intensityReset s.resets
    on := Config.onReset s.resets
    busy := false
    resetRequest := false
    resets := s.resets + 1 }

end Sys2Proof.Machine
end

