-- ==== Sys2Proof/Machine/Operands.lean ====
section
/-! DEFINITION. Operand assembly (rule R63): the table index of a character (rule R31) and the 14-bit frame of a
position and a byte (rules R54 to R57, R92). -/

namespace Sys2Proof.Machine

/-- The character has a table entry: `0x20 <= c <= 0x7E`, unsigned (rule R31, D1). -/
def inRange (c : Byte) : Bool := decide (Config.chLo ≤ c.toNat) && decide (c.toNat ≤ Config.chHi)

/-- The index `c - 0x20` of a character in range (rule R31); no index otherwise. -/
def tableIndex (c : Byte) : Option (Fin 95) :=
  if h : Config.chLo ≤ c.toNat ∧ c.toNat ≤ Config.chHi then
    some ⟨c.toNat - Config.chLo, by have := h.1; have := h.2; simp only [Config.chLo, Config.chHi] at *; omega⟩
  else none

/-- The five select bits, index 0 first; bit `i` is 1 exactly when `position == i` (rule R54, D7; log 15). -/
def selectBits (position : Byte) : List Bool :=
  [position == 0#8, position == 1#8, position == 2#8, position == 3#8, position == 4#8]

/-- The data bits of a colon frame: bits 0 and 1, then seven zeros (rule R56). -/
def colonData (bits : Byte) : List Bool :=
  [bits.getLsbD 0, bits.getLsbD 1, false, false, false, false, false, false, false]

/-- The data bits of a digit frame: two zeros, then bits 0 to 6 (rule R55). -/
def digitData (bits : Byte) : List Bool :=
  [false, false, bits.getLsbD 0, bits.getLsbD 1, bits.getLsbD 2, bits.getLsbD 3, bits.getLsbD 4, bits.getLsbD 5,
    bits.getLsbD 6]

/-- `FRAME(position, bits)`: the 14 bits sent, first to last, for every 8-bit position (rule R92, D8). -/
def frame (position bits : Byte) : List Bool :=
  selectBits position ++ (if position.toNat = Config.colon then colonData bits else digitData bits)

end Sys2Proof.Machine
end

