-- ==== Sys2Proof/Machine/Flags.lean ====
section
/-! DEFINITION. The block stores no flags (rule R15). What stands in their place: the predicate `found` of a lookup
(rules R15, R70, R71), the condition codes (rule R111), and the 16-bit summary of a result record (rule R62). -/

namespace Sys2Proof.Machine

/-- `found` is `entry != 0x00`, on all 8 bits (D21; log 24). -/
def isFound (entry : Byte) : Bool := entry != Config.sentinel

/-- The condition's code (rule R111). -/
def conditionCode : Condition → Nat
  | .norep _ _ => 1
  | .toolong => 2
  | .illegal => 3
  | .notconf => 4

/-- A condition with this code occurred. -/
def occurred (code : Nat) (conditions : List Condition) : Bool := conditions.any (fun c => conditionCode c == code)

/-- One bit of a word. -/
def bit1 (b : Bool) : BitVec 1 := BitVec.ofBool b

/-- The result port: `value` in 15..8, `found` in 7, 000 in 6..4, then NOTCONF, ILLEGAL, TOOLONG, NOREP (rule R62). -/
def resultWord (r : Result) : BitVec 16 :=
  r.value ++ bit1 r.found ++ 0b000#3 ++ bit1 (occurred 4 r.conditions) ++ bit1 (occurred 3 r.conditions) ++
    bit1 (occurred 2 r.conditions) ++ bit1 (occurred 1 r.conditions)

end Sys2Proof.Machine
end

