-- ==== Sys2Proof/Machine/ProtocolDriver.lean ====
section
/-! DEFINITION. The shift-register protocol family (42_protocol_driver.md): SHIFT_OUT and DRIVE_POSITION. They read no
table and no buffer; they write pins and wait. -/

namespace Sys2Proof.Machine

/-- Send one bit: data, delay, clock high, delay, clock low, delay (rule R90). -/
def shiftBit (b : Bool) (s : State) : State :=
  let s := delayBit (pinWrite .DAT b s)
  let s := delayBit (pinWrite .CLK true s)
  delayBit (pinWrite .CLK false s)

/-- Send bits, first to last. -/
def shiftBits : List Bool → State → State
  | [], s => s
  | b :: bs, s => shiftBits bs (shiftBit b s)

/-- Send one frame framed by the strobe (rule R91): strobe low, the 14 bits, strobe high for one bit-delay, low. -/
def driveFrame (position bits : Byte) (s : State) : State :=
  let s := pinWrite .STB false s
  let s := shiftBits (frame position bits) s
  let s := delayBit (pinWrite .STB true s)
  pinWrite .STB false s

/-- The trace of a SHIFT_OUT (rule R90): six events. -/
def bitTrace (b : Bool) : List Event :=
  [.pin .DAT b, .waitBit, .pin .CLK true, .waitBit, .pin .CLK false, .waitBit]

/-- The trace of a DRIVE_POSITION (rule R94). -/
def driveTrace (position bits : Byte) : List Event :=
  [.pin .STB false] ++ (frame position bits).flatMap bitTrace ++ [.pin .STB true, .waitBit, .pin .STB false]

/-- SHIFT_OUT (rule R90). -/
def execShiftOut (b : Bool) (s : State) : Host.Outcome State Fault Refusal :=
  .next (whenConfigured (shiftBit b) s)

/-- DRIVE_POSITION (rule R91). -/
def execDrivePosition (position bits : Byte) (s : State) : Host.Outcome State Fault Refusal :=
  .next (whenConfigured (driveFrame position bits) s)

end Sys2Proof.Machine
end

