-- ==== Sys2Proof/Machine/RefreshConfig.lean ====
section
/-! DEFINITION. The refresh and configuration family (43_refresh_config.md): REFRESH, SETUP, SET_INTENSITY, SET_ON. -/

namespace Sys2Proof.Machine

/-- One pass of REFRESH: drive cell `i` at position `i`, then its settle delay (rule R100). The cell is read at the
start of its pass. -/
def refreshPass (i settle : Nat) (s : State) : State :=
  delayUs settle (driveFrame (BitVec.ofNat 8 i) (readCell s.buf i) s)

/-- The passes from position `i` on, one for each settle delay, in ascending order. -/
def refreshPasses : Nat → List Nat → State → State
  | _, [], s => s
  | i, d :: ds, s => refreshPasses (i + 1) ds (refreshPass i d s)

/-- One full redraw: positions 0 to 4, then the blank frame (rule R100). Neither `on` nor `intensity` is read
(rule R105). -/
def redraw (s : State) : State :=
  driveFrame Config.blankPos 0x00#8 (refreshPasses 0 Config.settle s)

/-- The trace of the passes from position `i` on. -/
def passesTrace (buf : Buf) : Nat → List Nat → List Event
  | _, [] => []
  | i, d :: ds => driveTrace (BitVec.ofNat 8 i) (readCell buf i) ++ [.waitUs d] ++ passesTrace buf (i + 1) ds

/-- The trace of a REFRESH: six DRIVE_POSITION traces with the five settle delays between them (rule R100). -/
def refreshTrace (buf : Buf) : List Event :=
  passesTrace buf 0 Config.settle ++ driveTrace Config.blankPos 0x00#8

/-- REFRESH (rule R100). -/
def execRefresh (s : State) : Host.Outcome State Fault Refusal :=
  .next (whenConfigured redraw s)

/-- SETUP (rule R102): `configured <- 1`, no pin is written. -/
def execSetup (s : State) : Host.Outcome State Fault Refusal :=
  .next (complete noResult { s with configured := true })

/-- SET_INTENSITY (rule R103): stored, inert. -/
def execSetIntensity (level : Byte) (s : State) : Host.Outcome State Fault Refusal :=
  .next (complete noResult { s with intensity := level })

/-- SET_ON (rule R104): stored, inert. -/
def execSetOn (enable : Bool) (s : State) : Host.Outcome State Fault Refusal :=
  .next (complete noResult { s with on := enable })

end Sys2Proof.Machine
end

