-- ==== Sys2Proof/Machine/Lookup.lean ====
section
/-! DEFINITION. The lookup and remap family (40_lookup_remap.md): GLYPH_FOR, DOT_FOR, GREMAP, DREMAP. All four are
pure: they write no state but the result record, and produce no trace. -/

namespace Sys2Proof.Machine

/-- A lookup result, `(pattern, found)` (rules R70, R71). -/
structure LookupResult where
  pattern : Byte
  found : Bool
  deriving DecidableEq, Repr

/-- The lookup contract of both tables (rules R70, R71): out of range there is no table access and the answer is the
sentinel, not found; in range the entry, found when it is not 0x00. -/
def lookup (rom : Rom) (c : Byte) : LookupResult :=
  match tableIndex c with
  | none => ⟨Config.sentinel, false⟩
  | some idx => let p := memRead rom idx; ⟨p, isFound p⟩

/-- The lookup's answer as a result record, no conditions (rules R62, R70). -/
def lookupAnswer (r : LookupResult) : Result := ⟨r.pattern, r.found, []⟩

/-- GREMAP, table layout XABCDEFG to cell layout _DEFABCG: `r = {0, v[3:1], v[6:4], v[0]}` (rule R72, D5; log 13). -/
def gremap (v : Byte) : Byte :=
  0b0#1 ++ v.extractLsb' 1 3 ++ v.extractLsb' 4 3 ++ v.extractLsb' 0 1

/-- DREMAP, dot layout to colon-cell layout: bits 1 and 0 exchanged, bits 7..2 zero (rule R73, D6, C4; log 14). The
swap stands in this definition only. -/
def dremap (v : Byte) : Byte :=
  0b000000#6 ++ v.extractLsb' 0 1 ++ v.extractLsb' 1 1

/-- GLYPH_FOR (rule R70). -/
def execGlyphFor (c : Byte) (s : State) : Host.Outcome State Fault Refusal :=
  .next (complete (lookupAnswer (lookup s.glyphRom c)) s)

/-- DOT_FOR (rule R71). -/
def execDotFor (c : Byte) (s : State) : Host.Outcome State Fault Refusal :=
  .next (complete (lookupAnswer (lookup s.dotRom c)) s)

/-- GREMAP (rule R72). -/
def execGremap (v : Byte) (s : State) : Host.Outcome State Fault Refusal :=
  .next (complete ⟨gremap v, false, []⟩ s)

/-- DREMAP (rule R73). -/
def execDremap (v : Byte) (s : State) : Host.Outcome State Fault Refusal :=
  .next (complete ⟨dremap v, false, []⟩ s)

end Sys2Proof.Machine
end

