-- ==== Sys2Proof/Machine/TextEncoder.lean ====
section
/-! DEFINITION. The text encoder family (41_text_encoder.md): ENCODE_AT and ENCODE, the only writers of the Display
Buffer. -/

namespace Sys2Proof.Machine

/-- One encoding pass under way: the transient cursor (rule R13; log 11), the buffer, the conditions so far. -/
structure Pass where
  cursor : Nat
  buf : Buf
  conditions : List Condition
  deriving DecidableEq, Repr

/-- `if not found: signal NOREP(c, cursor)` (rules R80, R112). -/
def norepUnless (found : Bool) (c : Byte) (cursor : Nat) : List Condition :=
  if found then [] else [.norep c cursor]

/-- The skinny-1 merge condition (rule R81): the character is '1', the cursor is above 0, and the preceding cell's
stored value equals 0b00000001 on all 8 bits. -/
def mergeArmed (c : Byte) (cursor : Nat) (buf : Buf) : Bool :=
  c == Config.chOne && decide (0 < cursor) && readCell buf (cursor - 1) == Config.dpOnly

/-- Step 2 of rule R80: the colon cell takes the dot path, and the cursor advances. -/
def colonStep (dotRom : Rom) (c : Byte) (p : Pass) : Pass :=
  let r := lookup dotRom c
  { cursor := p.cursor + 1
    buf := writeCell p.buf Config.colon (dremap r.pattern)
    conditions := p.conditions ++ norepUnless r.found c p.cursor }

/-- Step 3 of rule R80: a glyph cell; a merging '1' is ORed into the preceding cell and the cursor stays, any other
character is written at the cursor, which advances. NOREP is signalled before the write (D19). -/
def glyphStep (glyphRom : Rom) (c : Byte) (p : Pass) : Pass :=
  let r := lookup glyphRom c
  let q := gremap r.pattern
  let conds := p.conditions ++ norepUnless r.found c p.cursor
  if mergeArmed c p.cursor p.buf then
    { p with buf := writeCell p.buf (p.cursor - 1) (readCell p.buf (p.cursor - 1) ||| q), conditions := conds }
  else
    { cursor := p.cursor + 1, buf := writeCell p.buf p.cursor q, conditions := conds }

/-- Steps 2 and 3 of rule R80 for one character met with `cursor < 5`. -/
def charStep (glyphRom dotRom : Rom) (c : Byte) (p : Pass) : Pass :=
  if p.cursor = Config.colon then colonStep dotRom c p else glyphStep glyphRom c p

/-- The loop of rule R80 over the text, front to back, with step 1: at the first character met with `cursor >= 5`
TOOLONG is signalled and the remaining characters are ignored. -/
def encodePass (glyphRom dotRom : Rom) : List Byte → Pass → Pass
  | [], p => p
  | c :: text, p =>
    if Config.nCell ≤ p.cursor then { p with conditions := p.conditions ++ [.toolong] }
    else encodePass glyphRom dotRom text (charStep glyphRom dotRom c p)

/-- The pass of a whole operation: the cursor starts at `start_pos` (rule R80). -/
def passOf (startPos : Byte) (text : List Byte) (s : State) : Pass :=
  encodePass s.glyphRom s.dotRom text ⟨startPos.toNat, s.buf, []⟩

/-- The operation's result: `cells_consumed = cursor - start_pos`, which is in 0..5 (rules R80, R84, D22). -/
def passResult (startPos : Byte) (p : Pass) : Result :=
  ⟨BitVec.ofNat 8 (p.cursor - startPos.toNat), false, p.conditions⟩

/-- The encoder's whole effect: the buffer and the result record. -/
def encodeInto (startPos : Byte) (text : List Byte) (s : State) : State :=
  let p := passOf startPos text s
  complete (passResult startPos p) { s with buf := p.buf }

/-- ENCODE_AT (rule R80). -/
def execEncodeAt (startPos : Byte) (text : List Byte) (s : State) : Host.Outcome State Fault Refusal :=
  .next (encodeInto startPos text s)

/-- ENCODE (rule R82): ENCODE_AT from cell 0. -/
def execEncode (text : List Byte) (s : State) : Host.Outcome State Fault Refusal :=
  .next (encodeInto 0x00#8 text s)

end Sys2Proof.Machine
end

