-- ==== Sys2Proof/Machine/Dispatch.lean ====
section
/-! DEFINITION. exec: one arm per operation of rule R60. -/

namespace Sys2Proof.Machine

def exec (i : Instr) (s : State) : Host.Outcome State Fault Refusal :=
  match i with
  | .setup => Sys2Proof.Machine.execSetup s
  | .encodeAt startPos text => Sys2Proof.Machine.execEncodeAt startPos text s
  | .encode text => Sys2Proof.Machine.execEncode text s
  | .refresh => Sys2Proof.Machine.execRefresh s
  | .setIntensity level => Sys2Proof.Machine.execSetIntensity level s
  | .setOn enable => Sys2Proof.Machine.execSetOn enable s
  | .glyphFor c => Sys2Proof.Machine.execGlyphFor c s
  | .dotFor c => Sys2Proof.Machine.execDotFor c s
  | .gremap v => Sys2Proof.Machine.execGremap v s
  | .dremap v => Sys2Proof.Machine.execDremap v s
  | .shiftOut b => Sys2Proof.Machine.execShiftOut b s
  | .drivePosition position bits => Sys2Proof.Machine.execDrivePosition position bits s

end Sys2Proof.Machine
end

