-- ==== Sys2Proof/Machine/Step.lean ====
section
/-! DEFINITION. One step of the block: take one command from the port and run it, start to finish (rules R9, R40,
R61, R133). A running block takes none (rule R22); a reset the host asked for comes first (rule R130); with no whole
command presented the block is idle (rule R124; log 2). -/

namespace Sys2Proof.Machine

def step (s : State) : Host.Outcome State Fault Refusal :=
  if s.busy then .next s
  else if s.resetRequest then .next (applyReset s)
  else match fetch s.pending with
    | .instr i rest => exec i { s with pending := rest }
    | .illegal _ rest => .next (refuse .illegal { s with pending := rest })
    | .incomplete => .next s

/-- The host presents the table word's command as the next one, before anything already presented, to a block that
is idle and has no reset to take (log 3). -/
def State.withFetchWord (s : State) (nbits w : Nat) : State :=
  { s with busy := false, resetRequest := false, pending := tableBytes nbits w ++ s.pending }

end Sys2Proof.Machine
end

