-- ==== Sys2Proof/Machine/HostPort.lean ====
section
/-! DEFINITION. The host's side of the boundary (rules R61, R67, R130, R146): presenting commands, asking for a reset,
the periodic tick, and running a list of operations one after another. -/

namespace Sys2Proof.Machine

/-- The bytes of a list of commands on the port, in order (rule R61). -/
def commandStream (is : List Instr) : List Byte := is.flatMap encode

/-- The host presents commands after those already presented (rule R61). -/
def present (is : List Instr) (s : State) : State := { s with pending := s.pending ++ commandStream is }

/-- The host asks for the reset event; the block takes it between two operations (rule R130). -/
def requestReset (s : State) : State := { s with resetRequest := true }

/-- A command of the callback that repopulates the buffer (rule R146, D20). -/
def tickCommand : Instr → Bool
  | .setup => false
  | .encodeAt _ _ => true
  | .encode _ => true
  | .refresh => false
  | .setIntensity _ => true
  | .setOn _ => true
  | .glyphFor _ => false
  | .dotFor _ => false
  | .gremap _ => false
  | .dremap _ => false
  | .shiftOut _ => false
  | .drivePosition _ _ => false

/-- `TICK = cmds ++ [REFRESH]` (rules R67, R146). -/
def tick (cmds : List Instr) : List Instr := cmds ++ [.refresh]

/-- Operations run one after another, each finishing before the next starts (rule R40). -/
def execAll : List Instr → State → Host.Outcome State Fault Refusal
  | [], s => .next s
  | i :: is, s =>
    match exec i s with
    | .next t => execAll is t
    | .fault f => .fault f
    | .refused r => .refused r

end Sys2Proof.Machine
end

