-- ==== Sys2Proof/Machine/Observe.lean ====
section
/-! DEFINITION. Observations of a trace: the received frames of rule R97 with the edge readings of rules R93 and R97,
and the minimum durations of rules R150 and R151. They are the spec's device for stating what was sent, not behaviour
of the block and not a model of the display (D17; log 22). -/

namespace Sys2Proof.Machine

/-- Which clock edge samples the data line (rule R97). -/
inductive ClockReading where
  | rising
  | falling
  deriving DecidableEq, Repr

/-- When the strobe pulse latches (rule R93). -/
inductive StrobeReading where
  | rising
  | level
  | falling
  deriving DecidableEq, Repr

/-- A frame as received: the sampled levels, oldest first. -/
abbrev Frame := List Level

/-- The observer: the line levels it has seen, its bit queue, the open latch of the level reading, the frames. -/
structure Receiver where
  pins : Pins
  queue : Frame
  latch : Frame
  frames : List Frame
  deriving DecidableEq, Repr

/-- The last 14 queued bits, oldest first (rule R97). -/
def lastFrame (queue : Frame) : Frame := queue.drop (queue.length - 14)

/-- The clock edge that `reading` samples on, seen in an event at the given line levels. -/
def samples (reading : ClockReading) (pins : Pins) (e : Event) : Bool :=
  match reading with
  | .rising => e == .pin .CLK true && pins.clk == .low
  | .falling => e == .pin .CLK false && pins.clk == .high

/-- The strobe rises. -/
def strobeRises (pins : Pins) (e : Event) : Bool := e == .pin .STB true && pins.stb == .low

/-- The strobe falls. -/
def strobeFalls (pins : Pins) (e : Event) : Bool := e == .pin .STB false && pins.stb == .high

/-- A frame is emitted and the queue emptied. -/
def emitFrame (f : Frame) (r : Receiver) : Receiver := { r with queue := [], frames := r.frames ++ [f] }

/-- The strobe's part of one event: the level reading follows the queue while the strobe is high and keeps what it
held when the strobe falls. -/
def observeStrobe (reading : StrobeReading) (pins : Pins) (e : Event) (r : Receiver) : Receiver :=
  match reading with
  | .rising => if strobeRises pins e then emitFrame (lastFrame r.queue) r else r
  | .falling => if strobeFalls pins e then emitFrame (lastFrame r.queue) r else r
  | .level =>
    if strobeFalls pins e then emitFrame r.latch r
    else if r.pins.stb == .high then { r with latch := lastFrame r.queue } else r

/-- One event: the lines, the sampling clock edge, the strobe. -/
def observe (clock : ClockReading) (strobe : StrobeReading) (r : Receiver) (e : Event) : Receiver :=
  let queue := if samples clock r.pins e then r.queue ++ [r.pins.dat] else r.queue
  observeStrobe strobe r.pins e { r with pins := eventPins e r.pins, queue := queue }

/-- The received frames of a trace that starts at the given line levels. Nothing is claimed unless CLK is 0 before
the first event (rules R97, R137). -/
def receivedFrames (clock : ClockReading) (strobe : StrobeReading) (start : Pins) (t : List Event) :
    Option (List Frame) :=
  if start.clk = .low then some (t.foldl (observe clock strobe) ⟨start, [], [], []⟩).frames else none

/-- The least time an event takes in whole nanoseconds (DESIGN CHOICE, log 20) when a bit-delay lasts `tBit` (rule R150); a pin write takes at
least zero. -/
def eventDuration (tBit : Nat) : Event → Nat
  | .pin _ _ => 0
  | .waitBit => tBit
  | .waitUs n => n * Config.tUnit

/-- The least time a trace takes, in nanoseconds. -/
def minDuration (tBit : Nat) (t : List Event) : Nat := (t.map (eventDuration tBit)).sum

end Sys2Proof.Machine
end

