-- ==== Sys2Proof/Machine/Sequencer.lean ====
section
/-! DEFINITION. The small-step form of DRIVE_POSITION and REFRESH (rules R14, R98): the same operations one trace event
at a time, with the progress value `(pass, k, phase)` and the `busy` bit (rule R22). The big-step `exec` is the model's
meaning; this machine is a second view of it, and must give exactly the same state at its end. -/

namespace Sys2Proof.Machine

/-- The phases of rule R98, in order, and SETTLE between the passes of a REFRESH. -/
inductive Phase where
  | stbLow
  | dat
  | d1
  | clkHi
  | d2
  | clkLo
  | d3
  | stbHi
  | d4
  | stbEnd
  | settle
  deriving DecidableEq, Repr

/-- The operation under way. -/
inductive Job where
  | drive (position bits : Byte)
  | refresh
  deriving DecidableEq, Repr

/-- The progress value of rule R98. `k` is the frame bit index, meaningful in the six middle phases; `pass` counts
REFRESH's six frames. -/
structure Progress where
  job : Job
  pass : Nat
  k : Nat
  phase : Phase
  deriving DecidableEq, Repr

/-- The frame being sent (rules R91, R100). -/
def jobFrame (job : Job) (pass : Nat) (buf : Buf) : List Bool :=
  match job with
  | .drive position bits => frame position bits
  | .refresh =>
    if pass < Config.nCell then frame (BitVec.ofNat 8 pass) (readCell buf pass) else frame Config.blankPos 0x00#8

/-- The event emitted in a phase (rules R94, R98). -/
def progressEvent (p : Progress) (buf : Buf) : Event :=
  match p.phase with
  | .stbLow => .pin .STB false
  | .dat => .pin .DAT ((jobFrame p.job p.pass buf).getD p.k false)
  | .d1 => .waitBit
  | .clkHi => .pin .CLK true
  | .d2 => .waitBit
  | .clkLo => .pin .CLK false
  | .d3 => .waitBit
  | .stbHi => .pin .STB true
  | .d4 => .waitBit
  | .stbEnd => .pin .STB false
  | .settle => .waitUs (Config.settle.getD p.pass 0)

/-- What follows the end of a frame: a DRIVE_POSITION is done; a REFRESH settles after its first five frames and is
done after the sixth (rules R98, R100). -/
def afterFrame (p : Progress) : Option Progress :=
  match p.job with
  | .drive _ _ => none
  | .refresh => if p.pass < Config.nCell then some { p with phase := .settle } else none

/-- The progress value after a phase; none when the operation is done (rule R98). -/
def advance (p : Progress) : Option Progress :=
  match p.phase with
  | .stbLow => some { p with k := 0, phase := .dat }
  | .dat => some { p with phase := .d1 }
  | .d1 => some { p with phase := .clkHi }
  | .clkHi => some { p with phase := .d2 }
  | .d2 => some { p with phase := .clkLo }
  | .clkLo => some { p with phase := .d3 }
  | .d3 => if p.k < 13 then some { p with k := p.k + 1, phase := .dat } else some { p with phase := .stbHi }
  | .stbHi => some { p with phase := .d4 }
  | .d4 => some { p with phase := .stbEnd }
  | .stbEnd => afterFrame p
  | .settle => some { p with pass := p.pass + 1, phase := .stbLow }

/-- The block between two events: its state and, while an operation runs, the sequencer's progress. -/
structure Micro where
  core : State
  progress : Option Progress
  deriving DecidableEq, Repr

/-- An operation of the sequencer is accepted: refused with NOTCONF while unconfigured, else started, and the block
is busy (rules R22, R117). -/
def startJob (job : Job) (s : State) : Micro :=
  if s.configured then ⟨{ s with busy := true }, some ⟨job, 0, 0, .stbLow⟩⟩ else ⟨refuse .notconf s, none⟩

/-- One event of the operation under way; at its last event the operation ends and the block is no longer busy. An
idle block stays as it is. -/
def microStep (m : Micro) : Micro :=
  match m.progress with
  | none => m
  | some p =>
    let s := emit (progressEvent p m.core.buf) m.core
    match advance p with
    | some q => ⟨s, some q⟩
    | none => ⟨complete noResult { s with busy := false }, none⟩

/-- A sequencer operation is issued: a busy block accepts no other command (rule R22), an idle one starts it. -/
def microAccept (job : Job) (m : Micro) : Micro := if m.core.busy then m else startJob job m.core

/-- `n` events. -/
def microRun : Nat → Micro → Micro
  | 0, m => m
  | n + 1, m => microRun n (microStep m)

/-- The instruction that a job runs. -/
def jobInstr : Job → Instr
  | .drive position bits => .drivePosition position bits
  | .refresh => .refresh

/-- How many events a job has (rules R94, R100). -/
def jobEvents : Job → Nat
  | .drive _ _ => 88
  | .refresh => 533

end Sys2Proof.Machine
end

