-- ==== Sys2Proof/Machine/Written.lean ====
section
/-! DEFINITION. The written syntax of rule R66: a mnemonic and comma-separated operands, a text as a double-quoted
string with `\xHH` for a byte that is not written as itself. DESIGN CHOICE (log 31): numbers in `0x` hexadecimal, and
`\xHH` for every byte outside 0x20..0x7E and for the double quote and the backslash. -/

namespace Sys2Proof.Machine

/-- One hexadecimal digit. -/
def hexDigit (n : Nat) : Char :=
  if n < 10 then Char.ofNat (48 + n) else Char.ofNat (55 + n)

/-- Two hexadecimal digits. -/
def hexDigits (v : Byte) : List Char := [hexDigit (v.toNat / 16), hexDigit (v.toNat % 16)]

/-- A number operand. -/
def writeNumber (v : Byte) : List Char := ['0', 'x'] ++ hexDigits v

/-- One character of a text. -/
def writeChar (c : Byte) : List Char :=
  if 0x20 ≤ c.toNat ∧ c.toNat ≤ 0x7E ∧ c ≠ 0x22#8 ∧ c ≠ 0x5C#8 then [Char.ofNat c.toNat]
  else ['\\', 'x'] ++ hexDigits c

/-- A text operand. -/
def writeText (text : List Byte) : List Char := ['"'] ++ text.flatMap writeChar ++ ['"']

/-- A bit operand. -/
def writeBit (b : Bool) : List Char := if b then ['1'] else ['0']

/-- The operands of an operation. -/
def writtenOperands : Instr → List (List Char)
  | .setup => []
  | .encodeAt startPos text => [writeNumber startPos, writeText text]
  | .encode text => [writeText text]
  | .refresh => []
  | .setIntensity level => [writeNumber level]
  | .setOn enable => [writeBit enable]
  | .glyphFor c => [writeNumber c]
  | .dotFor c => [writeNumber c]
  | .gremap v => [writeNumber v]
  | .dremap v => [writeNumber v]
  | .shiftOut b => [writeBit b]
  | .drivePosition position bits => [writeNumber position, writeNumber bits]

/-- An operation as rule R66 writes it. -/
def written (i : Instr) : String :=
  match writtenOperands i with
  | [] => mnemonicOf i
  | ops => mnemonicOf i ++ " " ++ String.ofList (List.intercalate [',', ' '] ops)

end Sys2Proof.Machine
end

