-- ==== Sys2Proof/Safety.lean ====
section
/-! DEFINITION. The terms claims use: a legal glyph table (rule R16), the lines at rest, what rule R64 calls an illegal
word, and the line discipline of rule R95. -/

namespace Sys2Proof

open Sys2Proof.Machine

/-- The glyph table meets rule R16 (a) and (b). -/
abbrev LegalGlyphRom (rom : Rom) : Prop :=
  rom[0x00] = 0x00#8 ∧ (rom[0x0E]).extractLsb' 0 7 = 0b0000001#7

/-- Between operations neither the clock nor the strobe is left high (rules R90, R91, R146). -/
abbrev LinesAtRest (pins : Pins) : Prop := pins.clk ≠ .high ∧ pins.stb ≠ .high

/-- What every step keeps: a legal glyph table, the lines at rest, no operation left running between steps (rule
R22), and lines of unknown level until SETUP: no pin is written while `configured` is 0 (rules R18, R117). -/
structure Inv (s : State) : Prop where
  glyphRom : LegalGlyphRom s.glyphRom
  lines : LinesAtRest s.pins
  idle : s.busy = false
  unwritten : s.configured = false → s.pins = pinsAtReset

/-- Rule R64: `op` in {0x6, 0x7, 0xE, 0xF}; `z != 0`; a "must be" field of rule R59 that is not as stated. Written
from the rules' tables, apart from the decoder. -/
abbrev IllegalWord (w : CommandWord) : Prop :=
  let op := opField w
  let aMustBe0 := op ≠ 0x1#4 ∧ op ≠ 0xD#4
  let bMustBe0 := op = 0x0#4 ∨ op = 0x3#4
  let bMustBeBit := op = 0x5#4 ∨ op = 0xC#4
  (op = 0x6#4 ∨ op = 0x7#4 ∨ op = 0xE#4 ∨ op = 0xF#4) ∨ zField w ≠ 0x0#4 ∨
    (aMustBe0 ∧ aField w ≠ 0x00#8) ∨ (bMustBe0 ∧ bField w ≠ 0x00#8) ∨ (bMustBeBit ∧ 1 < (bField w).toNat)

/-! ### Answers, written apart from the meanings -/

/-- The table pattern of a character, as rules R70 and R71 word it: the entry for 0x20..0x7E, else the sentinel. -/
def patternIn (rom : Rom) (c : Byte) : Byte :=
  if h : 0x20 ≤ c.toNat ∧ c.toNat ≤ 0x7E then rom[c.toNat - 0x20]'(by omega) else 0x00#8

/-- The NOREP of a character with this pattern at this cell, if it has one (rule R112). -/
def norepFor (pattern c : Byte) (cell : Nat) : List Condition := if pattern = 0x00#8 then [.norep c cell] else []

/-- `ENCODE_AT start, text` from `s` answers the count `n` and the conditions, leaves the buffer `b`, and changes
nothing else. -/
def Encodes (s : State) (start : Byte) (text : List Byte) (n : Byte) (conditions : List Condition) (b : Buf) : Prop :=
  exec (.encodeAt start text) s = .next (complete ⟨n, false, conditions⟩ { s with buf := b })

/-- The block can take a command: no operation runs and no reset is asked for (rules R22, R130). -/
abbrev Ready (s : State) : Prop := s.busy = false ∧ s.resetRequest = false

/-! ### Line discipline (rule R95) -/

/-- What a watcher of the lines keeps: the levels, and how many bit-delays since the last write of DAT, fall of CLK
and rise of STB (none before there was one). -/
structure Watch where
  pins : Pins
  sinceDat : Option Nat
  sinceFall : Option Nat
  sinceRise : Option Nat
  deriving DecidableEq, Repr

/-- One bit-delay more. -/
def oneMore (n : Option Nat) : Option Nat := n.map (· + 1)

/-- What an event does to the watcher. -/
def watchNext (w : Watch) (e : Event) : Watch :=
  let w' := { w with pins := eventPins e w.pins }
  match e with
  | .pin .DAT _ => { w' with sinceDat := some 0 }
  | .pin .CLK false => if w.pins.clk = .high then { w' with sinceFall := some 0 } else w'
  | .pin .CLK true => w'
  | .pin .STB true => { w' with sinceRise := some 0 }
  | .pin .STB false => w'
  | .waitBit => { w' with sinceDat := oneMore w.sinceDat, sinceFall := oneMore w.sinceFall, sinceRise := oneMore w.sinceRise }
  | .waitUs _ => w'

/-- The event keeps the discipline of rule R95 at the watcher's moment: `DAT` is written only while `CLK` is 0 and one
bit-delay after the last fall of `CLK` if there was one; `CLK` rises one bit-delay after the `DAT` write, with `STB`
0; `STB` rises only after `CLK` has been 0 for one bit-delay, falls one bit-delay after it rose, and no other line is
written while it is 1. -/
def watchAllows (w : Watch) (e : Event) : Bool :=
  match e with
  | .pin .DAT _ => w.pins.clk == .low && w.pins.stb != .high && (w.sinceFall == none || w.sinceFall == some 1)
  | .pin .CLK true => w.pins.clk == .low && w.pins.stb == .low && w.sinceDat == some 1
  | .pin .CLK false => w.pins.stb == .low
  | .pin .STB true => w.pins.clk == .low && w.sinceFall == some 1
  | .pin .STB false => w.pins.stb != .high || w.sinceRise == none || w.sinceRise == some 1
  | .waitBit => true
  | .waitUs _ => w.pins.stb != .high

/-- Every event of a trace keeps the discipline. -/
def disciplined : Watch → List Event → Bool
  | _, [] => true
  | w, e :: es => watchAllows w e && disciplined (watchNext w e) es

/-- The watcher at the start of an operation. -/
def watchFrom (pins : Pins) : Watch := ⟨pins, none, none, none⟩

end Sys2Proof
end

