-- ==== Sys2Proof/Certificates/Slice0/Obligations.lean ====
section
/-! DEFINITION. The statements for the provers, file by file of spec/. Each says in its docstring which rule it
formalises; LinesAtRest, Inv, IllegalWord, Encodes and the other terms are those of Sys2Proof/Safety.lean. -/

open Sys2Proof Sys2Proof.Machine

/-! ### The command port (rules R22, R59, R61, R64, R116) -/

/-- A block that can take a command and holds a whole one runs it, with the command's bytes taken (rules R22, R40,
R61). The step adds nothing else around exec. -/
def Obligations.StepRunsTheDecodedCommand : Prop :=
  ∀ (s : State) (i : Instr) (rest : List Byte), Ready s → fetch s.pending = .instr i rest →
    step s = exec i { s with pending := rest }

/-- Decoding an encoded well-formed operation gives it back, with what follows it (rules R59, R61, R65). -/
def Obligations.DecodeInvertsEncode : Prop :=
  ∀ (i : Instr) (rest : List Byte), i.WellFormed → fetch (encode i ++ rest) = .instr i rest

/-- Whatever is decoded is well-formed, and its bytes are exactly its encoding: no two words mean one operation. -/
def Obligations.EncodeInvertsDecode : Prop :=
  ∀ (bytes : List Byte) (i : Instr) (rest : List Byte), fetch bytes = .instr i rest →
    i.WellFormed ∧ bytes = encode i ++ rest

/-- Words written out from rule R59 (vectors V-CMD-1 to V-CMD-12) decode to their operations, the three bytes of a
word most significant first (the model's choice, log 1). -/
def Obligations.SpecWordsDecode : Prop :=
  fetch [0x00#8, 0x00#8, 0x00#8] = .instr .setup [] ∧
  fetch [0x10#8, 0x00#8, 0x02#8, 0x31#8, 0x3A#8] = .instr (.encodeAt 0x00#8 [0x31#8, 0x3A#8]) [] ∧
  fetch [0x20#8, 0x00#8, 0x02#8, 0x2E#8, 0x31#8] = .instr (.encode [0x2E#8, 0x31#8]) [] ∧
  fetch [0x30#8, 0x00#8, 0x00#8] = .instr .refresh [] ∧
  fetch [0x40#8, 0x00#8, 0x07#8] = .instr (.setIntensity 0x07#8) [] ∧
  fetch [0x50#8, 0x00#8, 0x01#8] = .instr (.setOn true) [] ∧
  fetch [0x80#8, 0x00#8, 0x38#8] = .instr (.glyphFor 0x38#8) [] ∧
  fetch [0x90#8, 0x00#8, 0x3A#8] = .instr (.dotFor 0x3A#8) [] ∧
  fetch [0xA0#8, 0x00#8, 0x30#8] = .instr (.gremap 0x30#8) [] ∧
  fetch [0xB0#8, 0x00#8, 0x01#8] = .instr (.dremap 0x01#8) [] ∧
  fetch [0xC0#8, 0x00#8, 0x01#8] = .instr (.shiftOut true) [] ∧
  fetch [0xD0#8, 0x02#8, 0x03#8] = .instr (.drivePosition 0x02#8 0x03#8) []

/-- The decoder accepts exactly the words of the operation table's rows, each as its row's operation, and no word is
two rows' (30_encoding.md: "a word that matches no row is illegal"). -/
def Obligations.LegalWordsAreTheTableRows : Prop :=
  (∀ (w : CommandWord) (text : List Byte),
    (∀ i, decodeWord w text = .ok i → ∃ row ∈ opcodeTable, row.holds w = true ∧ row.mnemonic = mnemonicOf i) ∧
    (∀ row ∈ opcodeTable, row.holds w = true → ∃ i, decodeWord w text = .ok i ∧ row.mnemonic = mnemonicOf i)) ∧
  opcodeTable.Pairwise (fun r r' => ∀ w, ¬ (r.holds w = true ∧ r'.holds w = true))

/-- A word that rule R64 calls illegal is refused with ILLEGAL: one result record, its text bytes discarded, no
other state change (rule R116, the spec's decision D16; how a word lies on the port is the model's choice, log 1). -/
def Obligations.IllegalWordIsRefused : Prop :=
  ∀ (s : State) (w : CommandWord) (text rest : List Byte), Ready s → IllegalWord w →
    text.length = (if opField w = 0x1#4 ∨ opField w = 0x2#4 then (bField w).toNat else 0) →
    s.pending = commandBytes w ++ (text ++ rest) →
    step s = .next { s with pending := rest, results := s.results ++ [⟨0x00#8, false, [.illegal]⟩] }

/-- A word that rule R64 does not call illegal is an operation (rules R59, R64): ILLEGAL is never said of it. -/
def Obligations.LegalWordIsAccepted : Prop :=
  ∀ (w : CommandWord) (text rest : List Byte), ¬ IllegalWord w →
    text.length = (if opField w = 0x1#4 ∨ opField w = 0x2#4 then (bField w).toNat else 0) →
    ∃ i, fetch (commandBytes w ++ (text ++ rest)) = .instr i rest

/-- While an operation runs the block accepts no command, on the port or in the event-by-event machine (rule R22, the
spec's decision D15; when `busy` is 1 is the model's reading, log 8). -/
def Obligations.BusyBlockTakesNoCommand : Prop :=
  ∀ s : State, s.busy = true →
    step s = .next s ∧ ∀ (job : Job) (p : Option Progress), microAccept job ⟨s, p⟩ = ⟨s, p⟩

/-- With fewer bytes presented than one whole command, a step changes nothing (the model's choice, log 2). -/
def Obligations.IncompleteCommandWaits : Prop :=
  ∀ s : State, s.resetRequest = false → fetch s.pending = .incomplete → step s = .next s

/-- Commands presented one after another run in that order, each finishing before the next starts, and what follows
them stays presented (rules R40, R61). -/
def Obligations.CommandStreamRunsInOrder : Prop :=
  ∀ (is : List Instr) (s : State) (rest : List Byte), Ready s → (∀ i ∈ is, i.WellFormed) →
    s.pending = commandStream is ++ rest →
    Host.Core.run Sys2Proof.core is.length s = execAll is { s with pending := rest }

/-- A table word placed for the next step is what the next step runs, with what was presented before behind it (the
model's choice, log 3). -/
def Obligations.PlacedWordRunsNext : Prop :=
  ∀ (s : State) (nbits w : Nat) (i : Instr), decodeTableWord nbits w = some i →
    step (s.withFetchWord nbits w) = exec i { s with busy := false, resetRequest := false }

/-! ### Lookup and remap (rules R70 to R73) -/

/-- GLYPH_FOR (rule R70): the entry and whether it is nonzero for 0x20..0x7E, the sentinel and not found outside;
space is never found with a legal table; an entry 0x80 is found and remaps to 0x00; nothing else changes; its word is
`op` = 1000, `b` = `c`. -/
def Obligations.GlyphForAnswers : Prop :=
  ∀ (c : Byte) (s : State),
    (∀ h : 0x20 ≤ c.toNat ∧ c.toNat ≤ 0x7E,
      exec (.glyphFor c) s = .next { s with results := s.results ++
        [⟨s.glyphRom[c.toNat - 0x20]'(by omega), s.glyphRom[c.toNat - 0x20]'(by omega) != 0x00#8, []⟩] }) ∧
    ((c.toNat < 0x20 ∨ 0x7E < c.toNat) →
      exec (.glyphFor c) s = .next { s with results := s.results ++ [⟨0x00#8, false, []⟩] }) ∧
    (LegalGlyphRom s.glyphRom →
      exec (.glyphFor 0x20#8) s = .next { s with results := s.results ++ [⟨0x00#8, false, []⟩] }) ∧
    gremap 0x80#8 = 0x00#8 ∧
    decodeWord (0x8#4 ++ 0x0#4 ++ 0x00#8 ++ c) [] = .ok (.glyphFor c)

/-- DOT_FOR (rule R71): the same contract on the dot table; an entry 0x04 is found and remaps to 0x00;
its word is `op` = 1001, `b` = `c`. -/
def Obligations.DotForAnswers : Prop :=
  ∀ (c : Byte) (s : State),
    (∀ h : 0x20 ≤ c.toNat ∧ c.toNat ≤ 0x7E,
      exec (.dotFor c) s = .next { s with results := s.results ++
        [⟨s.dotRom[c.toNat - 0x20]'(by omega), s.dotRom[c.toNat - 0x20]'(by omega) != 0x00#8, []⟩] }) ∧
    ((c.toNat < 0x20 ∨ 0x7E < c.toNat) →
      exec (.dotFor c) s = .next { s with results := s.results ++ [⟨0x00#8, false, []⟩] }) ∧
    dremap 0x04#8 = 0x00#8 ∧
    decodeWord (0x9#4 ++ 0x0#4 ++ 0x00#8 ++ c) [] = .ok (.dotFor c)

/-- GREMAP (rule R72), bit by bit, with its corner cases: bit 7 is 0 (the spec's decision D5), 0x00 stays 0x00, 0x01
exactly for bits 6..0 = 0000001; nothing else changes; its word is `op` = 1010, `b` = `v`. -/
def Obligations.GremapPermutesBits : Prop :=
  ∀ (v : Byte) (s : State), ∃ r : Byte,
    exec (.gremap v) s = .next { s with results := s.results ++ [⟨r, false, []⟩] } ∧
    (r.getLsbD 7 = false ∧ r.getLsbD 6 = v.getLsbD 3 ∧ r.getLsbD 5 = v.getLsbD 2 ∧ r.getLsbD 4 = v.getLsbD 1 ∧
      r.getLsbD 3 = v.getLsbD 6 ∧ r.getLsbD 2 = v.getLsbD 5 ∧ r.getLsbD 1 = v.getLsbD 4 ∧ r.getLsbD 0 = v.getLsbD 0) ∧
    (r = 0x01#8 ↔ v &&& 0x7F#8 = 0x01#8) ∧ (v = 0x00#8 → r = 0x00#8) ∧
    decodeWord (0xA#4 ++ 0x0#4 ++ 0x00#8 ++ v) [] = .ok (.gremap v)

/-- GREMAP in the shift-and-mask form, and twice in a row: the low seven bits come back (rule R72, the spec's own
inferences, "[derived: from rule R72]"). -/
def Obligations.GremapTwiceGivesBackSevenBits : Prop :=
  ∀ (v : Byte) (s : State), ∃ r : Byte,
    exec (.gremap v) s = .next { s with results := s.results ++ [⟨r, false, []⟩] } ∧
    r = ((v &&& 0x0E#8) <<< 3) ||| ((v &&& 0x70#8) >>> 3) ||| (v &&& 0x01#8) ∧
    exec (.gremap r) s = .next { s with results := s.results ++ [⟨v &&& 0x7F#8, false, []⟩] }

/-- DREMAP (rule R73): bits 1 and 0 exchanged, bits 7..2 zero; 0x00 stays 0x00; its own inverse on 2-bit values; 0x02
gives 0x01; its word is `op` = 1011, `b` = `v`. The swap is the spec's own decision (D6). -/
def Obligations.DremapSwapsBits : Prop :=
  ∀ (v : Byte) (s : State), ∃ r : Byte,
    exec (.dremap v) s = .next { s with results := s.results ++ [⟨r, false, []⟩] } ∧
    (r.getLsbD 0 = v.getLsbD 1 ∧ r.getLsbD 1 = v.getLsbD 0 ∧ ∀ k, 2 ≤ k → r.getLsbD k = false) ∧
    (v = 0x00#8 → r = 0x00#8) ∧ (v = 0x02#8 → r = 0x01#8) ∧
    exec (.dremap r) s = .next { s with results := s.results ++ [⟨v &&& 0x03#8, false, []⟩] } ∧
    decodeWord (0xB#4 ++ 0x0#4 ++ 0x00#8 ++ v) [] = .ok (.dremap v)

/-! ### The text encoder (rules R80 to R84, R112 to R114) -/

/-- Every ENCODE_AT answers a next state in which only the buffer and one result record are new, and the count is at
most 5 - start_pos, 0 from 5 on, and at most the number of characters (rules R80, R84; the bound is the spec's own
inference, "[derived: from rule R80]"). -/
def Obligations.EncodeAtAnswers : Prop :=
  ∀ (s : State) (start : Byte) (text : List Byte), ∃ n conditions b,
    Encodes s start text n conditions b ∧ n.toNat ≤ 5 - start.toNat ∧ n.toNat ≤ text.length

/-- ENCODE_AT, one character at a time, from the front (rule R80): TOOLONG and stop at a cursor of 5 or more; the dot
path at the colon cell; a merging '1' ORed into the preceding cell with the cursor kept; any other character written
at the cursor; an empty text does nothing and counts 0. The clauses fix every ENCODE_AT: buffer, count, conditions,
and that nothing else changes. Its word is `op` = 0001, `a` = `start_pos`, `b` = the text's length. -/
def Obligations.EncodeAtOneCharacterAtATime : Prop :=
  ∀ (s : State) (start c : Byte) (text : List Byte),
    let g := patternIn s.glyphRom c
    let d := patternIn s.dotRom c
    let merges := c = 0x31#8 ∧ 0 < start.toNat ∧ readCell s.buf (start.toNat - 1) = 0x01#8
    decodeWord (0x1#4 ++ 0x0#4 ++ start ++ BitVec.ofNat 8 text.length) text = .ok (.encodeAt start text) ∧
    Encodes s start [] 0x00#8 [] s.buf ∧
    (5 ≤ start.toNat → Encodes s start (c :: text) 0x00#8 [.toolong] s.buf) ∧
    (start.toNat = 2 → ∀ n conditions b,
      Encodes { s with buf := writeCell s.buf 2 (dremap d) } (start + 1) text n conditions b →
      Encodes s start (c :: text) (n + 1) (norepFor d c 2 ++ conditions) b) ∧
    (start.toNat < 5 → start.toNat ≠ 2 → merges → ∀ n conditions b,
      Encodes { s with buf := writeCell s.buf (start.toNat - 1) (0x01#8 ||| gremap g) } start text n conditions b →
      Encodes s start (c :: text) n (norepFor g c start.toNat ++ conditions) b) ∧
    (start.toNat < 5 → start.toNat ≠ 2 → ¬ merges → ∀ n conditions b,
      Encodes { s with buf := writeCell s.buf start.toNat (gremap g) } (start + 1) text n conditions b →
      Encodes s start (c :: text) (n + 1) (norepFor g c start.toNat ++ conditions) b)

/-- The skinny-1 merge condition (rule R81) on one character: below 5 and not at the colon cell, the preceding cell
takes the OR and no cell is consumed exactly when the character is '1', the position is above 0 and the preceding
cell's whole stored value is 0x01; at the colon cell and from 5 on nothing merges. -/
def Obligations.SkinnyOneMerges : Prop :=
  ∀ (s : State) (start c : Byte),
    let q := gremap (patternIn s.glyphRom c)
    let merges := c = 0x31#8 ∧ 0 < start.toNat ∧ readCell s.buf (start.toNat - 1) = 0x01#8
    (start.toNat < 5 → start.toNat ≠ 2 → merges →
      Encodes s start [c] 0x00#8 (norepFor (patternIn s.glyphRom c) c start.toNat)
        (writeCell s.buf (start.toNat - 1) (readCell s.buf (start.toNat - 1) ||| q))) ∧
    (start.toNat < 5 → start.toNat ≠ 2 → ¬ merges →
      Encodes s start [c] 0x01#8 (norepFor (patternIn s.glyphRom c) c start.toNat) (writeCell s.buf start.toNat q)) ∧
    (start.toNat = 2 →
      Encodes s start [c] 0x01#8 (norepFor (patternIn s.dotRom c) c 2) (writeCell s.buf 2 (dremap (patternIn s.dotRom c)))) ∧
    (5 ≤ start.toNat → Encodes s start [c] 0x00#8 [.toolong] s.buf)

/-- ENCODE answers, and it is ENCODE_AT from cell 0 (rule R82); its word is `op` = 0010, `a` = 0x00, `b` = the text's
length. -/
def Obligations.EncodeIsEncodeAtZero : Prop :=
  ∀ (s : State) (text : List Byte), ∃ t,
    exec (.encode text) s = .next t ∧ exec (.encodeAt 0x00#8 text) s = .next t ∧
    decodeWord (0x2#4 ++ 0x0#4 ++ 0x00#8 ++ BitVec.ofNat 8 text.length) text = .ok (.encode text)

/-- Cells that the text does not reach keep their contents: all but those from one before the start position (the
merge) to the last cell consumed (rules R32, R83 cases h and m). -/
def Obligations.EncodeLeavesOtherCells : Prop :=
  ∀ (s : State) (start : Byte) (text : List Byte) (n : Byte) (conditions : List Condition) (b : Buf),
    Encodes s start text n conditions b →
    ∀ i, i < 5 → (i + 1 < start.toNat ∨ start.toNat + n.toNat ≤ i) → readCell b i = readCell s.buf i

/-- The conditions of one operation: NOREPs, each for a character of the text at a cell below 5, then at most one
TOOLONG (rules R112, R113, and R114, the spec's own inference, "[derived: from rule R80]"). -/
def Obligations.NorepsPrecedeTooLong : Prop :=
  ∀ (s : State) (start : Byte) (text : List Byte) (n : Byte) (conditions : List Condition) (b : Buf),
    Encodes s start text n conditions b →
    ∃ noreps last, conditions = noreps ++ last ∧ (last = [] ∨ last = [.toolong]) ∧
      ∀ k ∈ noreps, ∃ c cell, k = .norep c cell ∧ c ∈ text ∧ start.toNat ≤ cell ∧ cell < 5

/-- TOOLONG exactly when some character is about to be processed with the cursor at 5 or more, and at most once; so
never when the text ends exactly as the cursor reaches 5; the count then returned is the truncated one (rule R113). -/
def Obligations.TooLongExactly : Prop :=
  ∀ (s : State) (start : Byte) (text : List Byte) (n : Byte) (conditions : List Condition) (b : Buf),
    Encodes s start text n conditions b →
    (.toolong ∈ conditions ↔
      ∃ k n' conditions' b', k < text.length ∧ Encodes s start (text.take k) n' conditions' b' ∧
        5 ≤ start.toNat + n'.toNat) ∧
    conditions.count .toolong ≤ 1 ∧ (.toolong ∈ conditions → 5 ≤ start.toNat + n.toNat)

/-- "." then "1" from cell 0, for every legal glyph table (source example S4): one cell, the '1' pattern and the
decimal point together, the other cells unchanged; no NOREP but for a '1' without an entry. -/
def Obligations.DotThenOneSharesACell : Prop :=
  ∀ s : State, LegalGlyphRom s.glyphRom →
    Encodes s 0x00#8 [0x2E#8, 0x31#8] 0x01#8 (norepFor (patternIn s.glyphRom 0x31#8) 0x31#8 1)
      (writeCell s.buf 0 (gremap (patternIn s.glyphRom 0x31#8) ||| 0x01#8))

/-- A table whose '1' remaps to 0x00 or 0x01: ".111..." of any length takes one cell and is never too long (rule R83
case k); with any other '1' the second one takes a cell of its own (case c). Both cases are the spec's own inferences,
"[derived: from rule R80 and rule R81]". -/
def Obligations.DegenerateOneMergesForever : Prop :=
  ∀ s : State, LegalGlyphRom s.glyphRom →
    let q := gremap (patternIn s.glyphRom 0x31#8)
    ((q = 0x00#8 ∨ q = 0x01#8) → ∀ m, ∃ conditions,
      Encodes s 0x00#8 (0x2E#8 :: List.replicate m 0x31#8) 0x01#8 conditions (writeCell s.buf 0 0x01#8) ∧
      .toolong ∉ conditions) ∧
    (¬ (q = 0x00#8 ∨ q = 0x01#8) →
      Encodes s 0x00#8 [0x2E#8, 0x31#8, 0x31#8] 0x02#8 []
        (writeCell (writeCell s.buf 0 (q ||| 0x01#8)) 1 q))

/-- "12345" from cell 0 fits exactly, whatever the tables (source example S3): five cells, cell 2 by the dot table,
no TOOLONG. -/
def Obligations.TwelveThreeFortyFiveFits : Prop :=
  ∀ s : State,
    let g := fun c => gremap (patternIn s.glyphRom c)
    ∃ conditions,
      Encodes s 0x00#8 [0x31#8, 0x32#8, 0x33#8, 0x34#8, 0x35#8] 0x05#8 conditions
        #v[g 0x31#8, g 0x32#8, dremap (patternIn s.dotRom 0x33#8), g 0x34#8, g 0x35#8] ∧
      .toolong ∉ conditions

/-- A character outside 0x20..0x7E at any cell stores 0x00, signals NOREP and consumes the cell (rule R83 case n, the
spec's own inference, "[derived: from rule R80 and rule R81]"). -/
def Obligations.UnrepresentableCharacterBlanks : Prop :=
  ∀ (s : State) (start c : Byte), start.toNat < 5 → (c.toNat < 0x20 ∨ 0x7E < c.toNat) →
    Encodes s start [c] 0x01#8 [.norep c start.toNat] (writeCell s.buf start.toNat 0x00#8)

/-! ### The protocol driver (rules R54 to R57, R90 to R97, R117) -/

/-- SHIFT_OUT (rule R90): six events, DAT at the bit, CLK low, STB untouched; refused before
SETUP (the spec's decision D18); its word is `op` = 1100, `b` bit 0 = the bit. -/
def Obligations.ShiftOutSendsOneBit : Prop :=
  ∀ (b : Bool) (s : State),
    (s.configured = true →
      exec (.shiftOut b) s = .next { s with
        pins := ⟨s.pins.stb, .low, if b then .high else .low⟩
        trace := s.trace ++
          [.pin .DAT b, .waitBit, .pin .CLK true, .waitBit, .pin .CLK false, .waitBit]
        results := s.results ++ [⟨0x00#8, false, []⟩] }) ∧
    (s.configured = false →
      exec (.shiftOut b) s = .next { s with results := s.results ++ [⟨0x00#8, false, [.notconf]⟩] }) ∧
    decodeWord (0xC#4 ++ 0x0#4 ++ 0x00#8 ++ if b then 0x01#8 else 0x00#8) [] = .ok (.shiftOut b)

/-- SHIFT_OUT, DRIVE_POSITION and REFRESH before SETUP: NOTCONF, no pin written, no delay, nothing else (rule R117, the
spec's decision D18). -/
def Obligations.PinWritersNeedSetup : Prop :=
  ∀ s : State, s.configured = false → ∀ i : Instr,
    ((∃ b, i = .shiftOut b) ∨ (∃ p b, i = .drivePosition p b) ∨ i = .refresh) →
    exec i s = .next { s with results := s.results ++ [⟨0x00#8, false, [.notconf]⟩] }

/-- FRAME(position, bits), slot by slot for every position and byte (rules R54, R55, R56, R57, R92): 14 bits, select
bit i high exactly for position i, a colon frame's two bits, a digit frame's seven bits, least significant first; the
blank frame is fourteen zeros. The order of the select bits is the spec's decision D7, positions outside 0..4 its
decision D8. -/
def Obligations.FrameSlots : Prop :=
  ∀ position bits : Byte,
    (frame position bits).length = 14 ∧
    (∀ i, i < 5 → (frame position bits)[i]? = some (decide (position.toNat = i))) ∧
    (position.toNat ≠ 2 →
      (frame position bits)[5]? = some false ∧ (frame position bits)[6]? = some false ∧
      ∀ k, k < 7 → (frame position bits)[7 + k]? = some (bits.getLsbD k)) ∧
    (position.toNat = 2 →
      (frame position bits)[5]? = some (bits.getLsbD 0) ∧ (frame position bits)[6]? = some (bits.getLsbD 1) ∧
      ∀ k, k < 7 → (frame position bits)[7 + k]? = some false) ∧
    frame 6#8 0x00#8 = List.replicate 14 false

/-- Which table bit each data slot carries (rules R55, R56, the spec's own inferences, "[derived: from rule R52]" and
"[derived: from rule R53]"): a remapped glyph G, C, B, A, F, E, D, a remapped dot pattern X, Y. -/
def Obligations.FrameCarriesTableBits : Prop :=
  (∀ position v : Byte, position.toNat ≠ 2 →
    (frame position (gremap v)).drop 7 =
      [v.getLsbD 0, v.getLsbD 4, v.getLsbD 5, v.getLsbD 6, v.getLsbD 1, v.getLsbD 2, v.getLsbD 3]) ∧
  ∀ v : Byte, ((frame 2#8 (dremap v)).drop 5).take 2 = [v.getLsbD 1, v.getLsbD 0]

/-- DRIVE_POSITION (rule R91): strobe low, the 14 bits of the frame by SHIFT_OUT, strobe high for one bit-delay, low;
at the end STB and CLK are low and DAT holds the frame's last bit; the buffer is neither read nor written; refused
before SETUP; its word is `op` = 1101, `a` = `position`, `b` = `bits`. -/
def Obligations.DrivePositionSendsFrame : Prop :=
  ∀ (position bits : Byte) (s : State),
    (s.configured = true →
      exec (.drivePosition position bits) s = .next { s with
        pins := ⟨.low, .low, if position.toNat = 2 then .low else if bits.getLsbD 6 then .high else .low⟩
        trace := s.trace ++ ([.pin .STB false] ++
          (frame position bits).flatMap (fun b =>
            [.pin .DAT b, .waitBit, .pin .CLK true, .waitBit, .pin .CLK false, .waitBit]) ++
          [.pin .STB true, .waitBit, .pin .STB false])
        results := s.results ++ [⟨0x00#8, false, []⟩] }) ∧
    (s.configured = false →
      exec (.drivePosition position bits) s = .next { s with
        results := s.results ++ [⟨0x00#8, false, [.notconf]⟩] }) ∧
    decodeWord (0xD#4 ++ 0x0#4 ++ position ++ bits) [] = .ok (.drivePosition position bits)

/-- The shape and size of a DRIVE_POSITION trace for every operand (rule R94, the spec's own inference, "[derived: from
rule R90 and rule R91]"): 88 events, 3 writes of STB, 14 of DAT, 28 of CLK,
14 of them rises, 43 bit-delays, at least 43 T_BIT and 12.9 microseconds long. -/
def Obligations.DrivePositionTraceSize : Prop :=
  ∀ (position bits : Byte) (s : State), s.configured = true → ∃ t es,
    exec (.drivePosition position bits) s = .next t ∧ t.trace = s.trace ++ es ∧
    es = [.pin .STB false] ++
      (frame position bits).flatMap (fun b =>
        [.pin .DAT b, .waitBit, .pin .CLK true, .waitBit, .pin .CLK false, .waitBit]) ++
      [.pin .STB true, .waitBit, .pin .STB false] ∧
    es.length = 88 ∧
    es.countP (fun e => e == .pin .STB false || e == .pin .STB true) = 3 ∧
    es.countP (fun e => e == .pin .DAT false || e == .pin .DAT true) = 14 ∧
    es.countP (fun e => e == .pin .CLK false || e == .pin .CLK true) = 28 ∧
    es.count (.pin .CLK true) = 14 ∧ es.count .waitBit = 43 ∧
    minDuration Config.tBit es = 43 * Config.tBit ∧ 12900 ≤ minDuration Config.tBit es

/-- The line discipline of a DRIVE_POSITION that starts with CLK at 0 (rule R95, the spec's own inference, "[derived:
from rule R90 and rule R91]"). -/
def Obligations.DrivePositionIsDisciplined : Prop :=
  ∀ (position bits : Byte) (s : State), s.configured = true → s.pins.clk = .low → ∃ t es,
    exec (.drivePosition position bits) s = .next t ∧ t.trace = s.trace ++ es ∧
    disciplined (watchFrom s.pins) es = true ∧ t.pins.clk = .low ∧ t.pins.stb = .low

/-- What a DRIVE_POSITION's trace delivers (rules R93, R97, the spec's own inferences from R91 and R95, and its own
device D17, log 22): with CLK 0 at the start exactly its frame, for either
sampling edge; for the rising strobe whatever STB was, for the level and the falling reading if STB was not left high.
With CLK not 0 nothing is claimed. -/
def Obligations.DrivePositionDeliversFrame : Prop :=
  ∀ (position bits : Byte) (s : State), s.configured = true → ∃ t es,
    exec (.drivePosition position bits) s = .next t ∧ t.trace = s.trace ++ es ∧
    ∀ (clock : ClockReading) (strobe : StrobeReading),
      (s.pins.clk = .low → strobe = .rising ∨ s.pins.stb ≠ .high →
        receivedFrames clock strobe s.pins es =
          some [(frame position bits).map (fun b => if b then Level.high else Level.low)]) ∧
      (s.pins.clk ≠ .low → receivedFrames clock strobe s.pins es = none)

/-! ### Refresh and configuration (rules R100 to R105, R151) -/

/-- REFRESH (rule R100): six DRIVE_POSITION traces, positions 0 to 4 with their cells and then the blank frame, with
the settle delays 5000, 2000, 2000, 2000, 5000 between them; all lines low at the end; the buffer only read; 533
events; refused before SETUP (the spec's decision D18); its word is `op` = 0011. With CLK 0 at the start the six frames
are received, for both sampling edges and all three strobe readings: that clause goes beyond R100 and rests on R93 and
R97, the spec's own inferences, and on the observation of log 22 (DESIGN CHOICE). -/
def Obligations.RefreshRedraws : Prop :=
  ∀ s : State,
    let es := driveTrace 0#8 (readCell s.buf 0) ++ [.waitUs 5000] ++ driveTrace 1#8 (readCell s.buf 1) ++ [.waitUs 2000] ++
      driveTrace 2#8 (readCell s.buf 2) ++ [.waitUs 2000] ++ driveTrace 3#8 (readCell s.buf 3) ++ [.waitUs 2000] ++
      driveTrace 4#8 (readCell s.buf 4) ++ [.waitUs 5000] ++ driveTrace 6#8 0x00#8
    (s.configured = true →
      exec .refresh s = .next { s with
        pins := ⟨.low, .low, .low⟩
        trace := s.trace ++ es
        results := s.results ++ [⟨0x00#8, false, []⟩] }) ∧
    (s.configured = false →
      exec .refresh s = .next { s with results := s.results ++ [⟨0x00#8, false, [.notconf]⟩] }) ∧
    decodeWord (0x3#4 ++ 0x0#4 ++ 0x00#8 ++ 0x00#8) [] = .ok .refresh ∧
    es.length = 533 ∧ es.count .waitBit = 258 ∧ es.countP (fun e => e == .waitUs 5000 || e == .waitUs 2000) = 5 ∧
    (s.pins.clk = .low → ∀ (clock : ClockReading) (strobe : StrobeReading), strobe = .rising ∨ s.pins.stb ≠ .high →
      receivedFrames clock strobe s.pins es =
        some ([frame 0#8 (readCell s.buf 0), frame 1#8 (readCell s.buf 1), frame 2#8 (readCell s.buf 2),
          frame 3#8 (readCell s.buf 3), frame 4#8 (readCell s.buf 4), List.replicate 14 false].map
            (fun f => f.map (fun b => if b then Level.high else Level.low))))

/-- Whatever the lines were, a REFRESH's damage is limited to position 0 (rule R137, the spec's own inference, "[derived:
from rule R90 and rule R25]"): after its first 88 events CLK and STB are 0, and what follows delivers the other five
frames, for every reading of the edges. -/
def Obligations.RefreshDeliversLaterFrames : Prop :=
  ∀ s : State, s.configured = true → ∃ t first rest,
    exec .refresh s = .next t ∧ t.trace = s.trace ++ (first ++ rest) ∧ first.length = 88 ∧
    (first.foldl (fun pins e => eventPins e pins) s.pins).clk = .low ∧
    (first.foldl (fun pins e => eventPins e pins) s.pins).stb = .low ∧
    ∀ (clock : ClockReading) (strobe : StrobeReading),
      receivedFrames clock strobe (first.foldl (fun pins e => eventPins e pins) s.pins) rest =
        some ([frame 1#8 (readCell s.buf 1), frame 2#8 (readCell s.buf 2), frame 3#8 (readCell s.buf 3),
          frame 4#8 (readCell s.buf 4), List.replicate 14 false].map
            (fun f => f.map (fun b => if b then Level.high else Level.low)))

/-- A second REFRESH with nothing between sends the same trace again (rule R43; vector V-RF-6). -/
def Obligations.RefreshTwiceRepeats : Prop :=
  ∀ s : State, s.configured = true → ∃ t u es,
    exec .refresh s = .next t ∧ exec .refresh t = .next u ∧
    t.trace = s.trace ++ es ∧ u.trace = t.trace ++ es ∧ u.buf = s.buf ∧ es ≠ []

/-- SETUP (rule R102): `configured` becomes 1, no pin level changes, empty trace, no conditions; a second SETUP changes
nothing but its own result record; its word is `op` = 0000. -/
def Obligations.SetupConfigures : Prop :=
  ∀ s : State,
    exec .setup s = .next { s with configured := true, results := s.results ++ [⟨0x00#8, false, []⟩] } ∧
    (s.configured = true → exec .setup s = .next { s with results := s.results ++ [⟨0x00#8, false, []⟩] }) ∧
    decodeWord (0x0#4 ++ 0x0#4 ++ 0x00#8 ++ 0x00#8) [] = .ok .setup

/-- SET_INTENSITY (rule R103): the level is stored, every value accepted, nothing transmitted; its word is
`op` = 0100, `b` = `level`. -/
def Obligations.SetIntensityStores : Prop :=
  ∀ (level : Byte) (s : State),
    exec (.setIntensity level) s = .next { s with intensity := level, results := s.results ++ [⟨0x00#8, false, []⟩] } ∧
    decodeWord (0x4#4 ++ 0x0#4 ++ 0x00#8 ++ level) [] = .ok (.setIntensity level)

/-- SET_ON (rule R104): the flag is stored, nothing transmitted; its word is `op` = 0101, `b` bit 0 = `enable`. -/
def Obligations.SetOnStores : Prop :=
  ∀ (enable : Bool) (s : State),
    exec (.setOn enable) s = .next { s with on := enable, results := s.results ++ [⟨0x00#8, false, []⟩] } ∧
    decodeWord (0x5#4 ++ 0x0#4 ++ 0x00#8 ++ if enable then 0x01#8 else 0x00#8) [] = .ok (.setOn enable)

/-- Inertness (rule R105): two states that differ only in `intensity` and `on` give, for every operation, the same
buffer, lines, pin-mode flag, trace and results. -/
def Obligations.ConfigurationIsInert : Prop :=
  ∀ (i : Instr) (s : State) (level : Byte) (enable : Bool), ∃ t u,
    exec i s = .next t ∧ exec i { s with intensity := level, on := enable } = .next u ∧
    u.buf = t.buf ∧ u.pins = t.pins ∧ u.configured = t.configured ∧ u.trace = t.trace ∧ u.results = t.results

/-- The durations of rule R151 (the spec's own inference, "[derived: from rule R94 and rule R100]", with D14; every
duration a whole number of nanoseconds, the model's choice, log 20), for the bit-delay actually used and at its minimum: SHIFT_OUT 3 bit-delays and 900 ns,
DRIVE_POSITION 43 and 12900 ns, REFRESH 258 and 16000 microseconds and 16077400 ns, every other operation none. -/
def Obligations.MinimumDurations : Prop :=
  300 ≤ Config.tBit ∧
  ∀ (i : Instr) (s : State), s.configured = true → ∃ t es,
    exec i s = .next t ∧ t.trace = s.trace ++ es ∧ ∀ d : Nat,
      minDuration d es = (match i with
        | .shiftOut _ => 3 * d
        | .drivePosition _ _ => 43 * d
        | .refresh => 16000000 + 258 * d
        | .setup => 0
        | .encodeAt _ _ => 0
        | .encode _ => 0
        | .setIntensity _ => 0
        | .setOn _ => 0
        | .glyphFor _ => 0
        | .dotFor _ => 0
        | .gremap _ => 0
        | .dremap _ => 0) ∧
      (i = .refresh → minDuration 300 es = 16077400)

/-! ### The whole machine (rules R8, R10, R18, R19, R25, R62, R98, R115, R130, R146) -/

/-- Every operation ends in a next state with exactly one new result record, its events appended to the trace and the
lines where those events put them; and every step ends in a next state: nothing traps (rules R8, R18, R115). -/
def Obligations.EveryOperationAnswers : Prop :=
  (∀ (i : Instr) (s : State), ∃ t r es,
    exec i s = .next t ∧ t.results = s.results ++ [r] ∧ t.trace = s.trace ++ es ∧
    t.pins = es.foldl (fun pins e => eventPins e pins) s.pins) ∧
  ∀ s : State, ∃ t, step s = .next t

/-- The "written by" column of rule R10, for every operation: the buffer by ENCODE_AT and ENCODE, the lines and the
trace by SHIFT_OUT, DRIVE_POSITION and REFRESH, `configured` by SETUP, `intensity` by SET_INTENSITY, `on` by SET_ON,
the tables by none; the host's input and the model's own counters by none. -/
def Obligations.OnlyListedWriters : Prop :=
  ∀ (i : Instr) (s t : State), exec i s = .next t →
    (t.buf ≠ s.buf → (∃ p x, i = .encodeAt p x) ∨ ∃ x, i = .encode x) ∧
    (t.pins ≠ s.pins ∨ t.trace ≠ s.trace → (∃ b, i = .shiftOut b) ∨ (∃ p b, i = .drivePosition p b) ∨ i = .refresh) ∧
    (t.configured ≠ s.configured → i = .setup) ∧
    (t.intensity ≠ s.intensity → ∃ l, i = .setIntensity l) ∧
    (t.on ≠ s.on → ∃ e, i = .setOn e) ∧
    t.glyphRom = s.glyphRom ∧ t.dotRom = s.dotRom ∧ t.busy = s.busy ∧ t.pending = s.pending ∧
    t.resetRequest = s.resetRequest ∧ t.resets = s.resets

/-- No step writes a table, and none clears `configured` but the reset event (rules R16, R17, R19, R130). -/
def Obligations.TablesAndConfiguredPersist : Prop :=
  ∀ s t : State, step s = .next t →
    t.glyphRom = s.glyphRom ∧ t.dotRom = s.dotRom ∧
    (s.configured = true → s.resetRequest = false → t.configured = true)

/-- The state after reset (rule R25): `configured` and `busy` 0, the three lines at the default of PIN_RESET, the cells
at the open BUF_RESET and the tables at their open parameters (log 4, 5, 6), nothing presented, sent or reported. -/
def Obligations.ResetLeaves : Prop :=
  State.reset.configured = false ∧ State.reset.busy = false ∧ State.reset.pins = ⟨.U, .U, .U⟩ ∧
  (∀ i, i < 5 → readCell State.reset.buf i = Config.bufReset i) ∧
  (∀ i : Fin 95, State.reset.glyphRom[i] = Config.glyphRomEntry i.val ∧ State.reset.dotRom[i] = Config.dotEntry i.val) ∧
  State.reset.pending = [] ∧ State.reset.trace = [] ∧ State.reset.results = []

/-- The reset event of a later reset (rule R130): buffer, lines and flags at their values of rule R25, no pin event, no
delay, no condition, the tables unchanged; commands not yet taken stay presented (the model's choice, log 9). -/
def Obligations.ResetEvent : Prop :=
  ∀ s : State, s.busy = false → s.resetRequest = true → ∃ t, step s = .next t ∧
    (∀ i, i < 5 → readCell t.buf i = Config.bufReset i) ∧ t.pins = ⟨.U, .U, .U⟩ ∧ t.configured = false ∧
    t.busy = false ∧ t.resetRequest = false ∧ t.glyphRom = s.glyphRom ∧ t.dotRom = s.dotRom ∧
    t.trace = s.trace ∧ t.results = s.results ∧ t.pending = s.pending

/-- The invariant at reset: a table that meets rule R16 whatever the free bytes, lines at rest, no operation running. -/
def Obligations.InvariantAtReset : Prop := Inv State.reset

/-- Every step keeps the invariant: a legal glyph table, CLK and STB never left high, no operation left running, and
no line written before SETUP (rules R16, R18, R22, R90, R91, R117, R146). -/
def Obligations.InvariantKeptByStep : Prop :=
  ∀ s t : State, Inv s → step s = .next t → Inv t

/-- The small-step form (rules R14, R22, R98, the spec's own inference, "[derived: from rule R91 and rule R94]"; log 8,
28): started on a configured idle block, the event-by-event machine of
DRIVE_POSITION or REFRESH is busy until its last event and then stands exactly where the operation's one step does. -/
def Obligations.SmallStepsMakeTheBigStep : Prop :=
  ∀ (job : Job) (s : State), s.configured = true → s.busy = false → ∃ t,
    exec (jobInstr job) s = .next t ∧
    microRun (jobEvents job) (startJob job s) = ⟨t, none⟩ ∧
    ∀ n, n < jobEvents job → (microRun n (startJob job s)).core.busy = true

/-- A TICK (rules R67, R146): the callback's commands send nothing, and the REFRESH after them sends one redraw of the
buffer as they left it. -/
def Obligations.TickSendsOneRedraw : Prop :=
  ∀ (cmds : List Instr) (s : State) (rest : List Byte), Ready s → s.configured = true →
    (∀ i ∈ cmds, tickCommand i = true ∧ i.WellFormed) →
    s.pending = commandStream (tick cmds) ++ rest → ∃ t,
    Host.Core.run Sys2Proof.core (tick cmds).length s = .next t ∧ t.pending = rest ∧
    t.trace = s.trace ++ refreshTrace t.buf ∧ t.results.length = s.results.length + cmds.length + 1

/-- The result port (rule R62): value in bits 15..8, found in bit 7, zeros in 6..4, then NOTCONF, ILLEGAL, TOOLONG and
NOREP occurred. -/
def Obligations.ResultWordFields : Prop :=
  ∀ r : Result,
    (resultWord r).extractLsb' 8 8 = r.value ∧ (resultWord r).getLsbD 7 = r.found ∧
    (resultWord r).extractLsb' 4 3 = 0b000#3 ∧
    ((resultWord r).getLsbD 3 = true ↔ .notconf ∈ r.conditions) ∧
    ((resultWord r).getLsbD 2 = true ↔ .illegal ∈ r.conditions) ∧
    ((resultWord r).getLsbD 1 = true ↔ .toolong ∈ r.conditions) ∧
    ((resultWord r).getLsbD 0 = true ↔ ∃ c cell, .norep c cell ∈ r.conditions)
end

