-- ==== Sys2Proof/Laws/Decode.lean ====
section
/-! SUPPORT. The fields of a packed word, and the word its bytes carry. -/

namespace Sys2Proof

/-- The three bytes of a word carry that word. -/
@[simp] theorem commandWord_bytes (w : CommandWord) :
    commandWord (w.extractLsb' 16 8) (w.extractLsb' 8 8) (w.extractLsb' 0 8) = w := by
  apply BitVec.eq_of_getLsbD_eq
  intro i hi
  unfold commandWord
  rw [BitVec.getLsbD_append, BitVec.getLsbD_append]
  simp only [BitVec.getLsbD_extractLsb']
  split <;> [skip; split] <;> simp (disch := omega) only [decide_eq_true, Bool.true_and] <;> congr 1 <;> omega

/-- Any three bytes are the bytes of the word they carry. -/
@[simp] theorem commandBytes_word (b2 b1 b0 : Byte) : commandBytes (commandWord b2 b1 b0) = [b2, b1, b0] := by
  simp only [commandBytes, commandWord, List.cons.injEq, and_true]
  refine ⟨?_, ?_, ?_⟩ <;>
    (apply BitVec.eq_of_getLsbD_eq
     intro i hi
     rw [BitVec.getLsbD_extractLsb', BitVec.getLsbD_append, BitVec.getLsbD_append]
     interval_cases i <;> rfl)

@[simp] theorem opField_packWord (op : BitVec 4) (a b : Byte) : opField (packWord op a b) = op := by
  apply BitVec.eq_of_getLsbD_eq
  intro i hi
  unfold opField packWord
  rw [BitVec.getLsbD_extractLsb', BitVec.getLsbD_append, BitVec.getLsbD_append, BitVec.getLsbD_append]
  interval_cases i <;> rfl

@[simp] theorem zField_packWord (op : BitVec 4) (a b : Byte) : zField (packWord op a b) = 0x0#4 := by
  apply BitVec.eq_of_getLsbD_eq
  intro i hi
  unfold zField packWord
  rw [BitVec.getLsbD_extractLsb', BitVec.getLsbD_append, BitVec.getLsbD_append, BitVec.getLsbD_append]
  interval_cases i <;> rfl

@[simp] theorem aField_packWord (op : BitVec 4) (a b : Byte) : aField (packWord op a b) = a := by
  apply BitVec.eq_of_getLsbD_eq
  intro i hi
  unfold aField packWord
  rw [BitVec.getLsbD_extractLsb', BitVec.getLsbD_append, BitVec.getLsbD_append, BitVec.getLsbD_append]
  interval_cases i <;> rfl

@[simp] theorem bField_packWord (op : BitVec 4) (a b : Byte) : bField (packWord op a b) = b := by
  apply BitVec.eq_of_getLsbD_eq
  intro i hi
  unfold bField packWord
  rw [BitVec.getLsbD_extractLsb', BitVec.getLsbD_append, BitVec.getLsbD_append, BitVec.getLsbD_append]
  interval_cases i <;> rfl

/-- A word whose `z` is 0 is the packing of its fields. -/
theorem packWord_fields (w : CommandWord) (hz : zField w = 0x0#4) :
    packWord (opField w) (aField w) (bField w) = w := by
  rw [packWord, ← hz]
  apply BitVec.eq_of_getLsbD_eq
  intro i hi
  unfold opField zField aField bField
  rw [BitVec.getLsbD_append, BitVec.getLsbD_append, BitVec.getLsbD_append]
  simp only [BitVec.getLsbD_extractLsb']
  split <;> [skip; split <;> [skip; split]] <;> simp (disch := omega) only [decide_eq_true, Bool.true_and] <;>
    congr 1 <;> omega

/-- A bit sent as a byte passes the test for bits 7..1 and is read back. -/
@[simp] theorem needBit_packWord (op : BitVec 4) (a : Byte) (b : Bool) (f : Bool → Instr) :
    needBit (packWord op a (bitByte b)) f = .ok (f b) := by
  cases b <;> simp [needBit, bitByte]

/-- Taking a command from its word's bytes, its text and what follows. -/
theorem fetch_bytes (w : CommandWord) (text rest : List Byte) (h : text.length = textLength w) :
    fetch (commandBytes w ++ (text ++ rest)) =
      match decodeWord w text with
      | .ok i => .instr i rest
      | .error e => .illegal e rest := by
  simp only [commandBytes, List.cons_append, List.nil_append, fetch, commandWord_bytes, ← h, List.length_append,
    List.take_left, List.drop_left]
  exact (if_neg (by omega)).trans (by cases decodeWord w text <;> rfl)

end Sys2Proof
end

