-- ==== Sys2Proof/Laws/State.lean ====
section
/-! SUPPORT. One lemma per field for each update of the state (Machine/Ops.lean), all true by rfl, so that no proof
unfolds a record update. -/

namespace Sys2Proof.Machine

/-! ### emit -/

@[simp] theorem emit_buf (e : Event) (s : State) : (emit e s).buf = s.buf := rfl
@[simp] theorem emit_pins (e : Event) (s : State) : (emit e s).pins = eventPins e s.pins := rfl
@[simp] theorem emit_configured (e : Event) (s : State) : (emit e s).configured = s.configured := rfl
@[simp] theorem emit_intensity (e : Event) (s : State) : (emit e s).intensity = s.intensity := rfl
@[simp] theorem emit_on (e : Event) (s : State) : (emit e s).on = s.on := rfl
@[simp] theorem emit_busy (e : Event) (s : State) : (emit e s).busy = s.busy := rfl
@[simp] theorem emit_glyphRom (e : Event) (s : State) : (emit e s).glyphRom = s.glyphRom := rfl
@[simp] theorem emit_dotRom (e : Event) (s : State) : (emit e s).dotRom = s.dotRom := rfl
@[simp] theorem emit_pending (e : Event) (s : State) : (emit e s).pending = s.pending := rfl
@[simp] theorem emit_resetRequest (e : Event) (s : State) : (emit e s).resetRequest = s.resetRequest := rfl
@[simp] theorem emit_resets (e : Event) (s : State) : (emit e s).resets = s.resets := rfl
@[simp] theorem emit_trace (e : Event) (s : State) : (emit e s).trace = s.trace ++ [e] := rfl
@[simp] theorem emit_results (e : Event) (s : State) : (emit e s).results = s.results := rfl

/-! ### complete -/

@[simp] theorem complete_buf (r : Result) (s : State) : (complete r s).buf = s.buf := rfl
@[simp] theorem complete_pins (r : Result) (s : State) : (complete r s).pins = s.pins := rfl
@[simp] theorem complete_configured (r : Result) (s : State) : (complete r s).configured = s.configured := rfl
@[simp] theorem complete_intensity (r : Result) (s : State) : (complete r s).intensity = s.intensity := rfl
@[simp] theorem complete_on (r : Result) (s : State) : (complete r s).on = s.on := rfl
@[simp] theorem complete_busy (r : Result) (s : State) : (complete r s).busy = s.busy := rfl
@[simp] theorem complete_glyphRom (r : Result) (s : State) : (complete r s).glyphRom = s.glyphRom := rfl
@[simp] theorem complete_dotRom (r : Result) (s : State) : (complete r s).dotRom = s.dotRom := rfl
@[simp] theorem complete_pending (r : Result) (s : State) : (complete r s).pending = s.pending := rfl
@[simp] theorem complete_resetRequest (r : Result) (s : State) : (complete r s).resetRequest = s.resetRequest := rfl
@[simp] theorem complete_resets (r : Result) (s : State) : (complete r s).resets = s.resets := rfl
@[simp] theorem complete_trace (r : Result) (s : State) : (complete r s).trace = s.trace := rfl
@[simp] theorem complete_results (r : Result) (s : State) : (complete r s).results = s.results ++ [r] := rfl

/-! ### applyReset -/

@[simp] theorem applyReset_buf (s : State) : (applyReset s).buf = bufAtReset := rfl
@[simp] theorem applyReset_pins (s : State) : (applyReset s).pins = pinsAtReset := rfl
@[simp] theorem applyReset_configured (s : State) : (applyReset s).configured = false := rfl
@[simp] theorem applyReset_intensity (s : State) : (applyReset s).intensity = Config.intensityReset s.resets := rfl
@[simp] theorem applyReset_on (s : State) : (applyReset s).on = Config.onReset s.resets := rfl
@[simp] theorem applyReset_busy (s : State) : (applyReset s).busy = false := rfl
@[simp] theorem applyReset_glyphRom (s : State) : (applyReset s).glyphRom = s.glyphRom := rfl
@[simp] theorem applyReset_dotRom (s : State) : (applyReset s).dotRom = s.dotRom := rfl
@[simp] theorem applyReset_pending (s : State) : (applyReset s).pending = s.pending := rfl
@[simp] theorem applyReset_resetRequest (s : State) : (applyReset s).resetRequest = false := rfl
@[simp] theorem applyReset_resets (s : State) : (applyReset s).resets = s.resets + 1 := rfl
@[simp] theorem applyReset_trace (s : State) : (applyReset s).trace = s.trace := rfl
@[simp] theorem applyReset_results (s : State) : (applyReset s).results = s.results := rfl

/-! ### The operations that are one of these -/

@[simp] theorem pinWrite_eq_emit (p : Pin) (b : Bool) (s : State) : pinWrite p b s = emit (.pin p b) s := rfl
@[simp] theorem delayBit_eq_emit (s : State) : delayBit s = emit .waitBit s := rfl
@[simp] theorem delayUs_eq_emit (n : Nat) (s : State) : delayUs n s = emit (.waitUs n) s := rfl
@[simp] theorem refuse_eq_complete (c : Condition) (s : State) :
    refuse c s = complete ⟨0x00#8, false, [c]⟩ s := rfl

end Sys2Proof.Machine
end

