-- ==== Sys2Proof/Laws/Ops.lean ====
section
/-! SUPPORT. What each shared operation of Machine/Ops.lean can do, said once: cells, event lists, the pin writers'
guard. -/

namespace Sys2Proof.Machine

/-! ### Buffer cells -/

@[simp] theorem readCell_writeCell_same (buf : Buf) (i : Nat) (v : Byte) (h : i < 5) :
    readCell (writeCell buf i v) i = v := by
  simp [readCell, writeCell, Vector.getD, h]

theorem readCell_writeCell_ne (buf : Buf) (i j : Nat) (v : Byte) (h : i ≠ j) :
    readCell (writeCell buf i v) j = readCell buf j := by
  simp [readCell, writeCell, Vector.getD, h]

/-- "Writes beyond 4 are rejected" (rule R32). -/
theorem writeCell_beyond (buf : Buf) (i : Nat) (v : Byte) (h : 5 ≤ i) : writeCell buf i v = buf := by
  apply Vector.ext
  intro j hj
  have : i ≠ j := by omega
  simp [writeCell, this]

/-- Two buffers are equal when their five cells are. -/
theorem buf_ext (a b : Buf) (h : ∀ i, i < 5 → readCell a i = readCell b i) : a = b := by
  apply Vector.ext
  intro i hi
  simpa [readCell, Vector.getD, hi] using h i hi

/-! ### Events -/

/-- The lines after a list of events. -/
def linesAfter (es : List Event) (pins : Pins) : Pins := es.foldl (fun p e => eventPins e p) pins

@[simp] theorem linesAfter_nil (pins : Pins) : linesAfter [] pins = pins := rfl
@[simp] theorem linesAfter_cons (e : Event) (es : List Event) (pins : Pins) :
    linesAfter (e :: es) pins = linesAfter es (eventPins e pins) := rfl
theorem linesAfter_append (as bs : List Event) (pins : Pins) :
    linesAfter (as ++ bs) pins = linesAfter bs (linesAfter as pins) := by
  simp [linesAfter]

/-- Emitting a list of events sets the lines, extends the trace and does nothing else. -/
theorem emitAll_eq (es : List Event) (s : State) :
    emitAll es s = { s with pins := linesAfter es s.pins, trace := s.trace ++ es } := by
  induction es generalizing s with
  | nil => simp [emitAll]
  | cons e es ih => simpa [emitAll, emit] using ih (emit e s)

theorem emitAll_append (as bs : List Event) (s : State) : emitAll (as ++ bs) s = emitAll bs (emitAll as s) := by
  simp [emitAll]

@[simp] theorem emitAll_nil (s : State) : emitAll [] s = s := rfl
@[simp] theorem emitAll_cons (e : Event) (es : List Event) (s : State) :
    emitAll (e :: es) s = emitAll es (emit e s) := rfl

/-! ### The pin writers' guard -/

theorem whenConfigured_of_configured (act : State → State) (s : State) (h : s.configured = true) :
    whenConfigured act s = complete noResult (act s) := by
  simp [whenConfigured, h]

theorem whenConfigured_of_unconfigured (act : State → State) (s : State) (h : s.configured = false) :
    whenConfigured act s = refuse .notconf s := by
  simp [whenConfigured, h]

end Sys2Proof.Machine
end

