-- ==== Sys2Proof/Laws/PerInstr.lean ====
section
/-! SUPPORT. A statement for each operation: its command is its 24-bit word and one byte per text character, and its
word announces exactly that many text bytes (rules R59, R61, R65). -/

namespace Sys2Proof.Laws.EncodeLength

/-- A well-formed operation's command has three bytes and its text, and its word announces that text's length. -/
def Statement (i : Instr) : Prop :=
  i.WellFormed → (Sys2Proof.encode i).length = 3 + i.text.length ∧ textLength (encodeWord i) = i.text.length

theorem setup : Statement .setup := fun _ => by decide
theorem encodeAt (startPos : Byte) (text : List Byte) : Statement (.encodeAt startPos text) := by
  intro h
  have h : text.length ≤ 255 := h
  simp only [Sys2Proof.encode, commandBytes, encodeWord, textLength, opField_packWord, bField_packWord, Instr.text]
  simp only [List.length_append, List.length_cons, List.length_nil, BitVec.toNat_ofNat]
  simp
  omega
theorem encode (text : List Byte) : Statement (.encode text) := by
  intro h
  have h : text.length ≤ 255 := h
  simp only [Sys2Proof.encode, commandBytes, encodeWord, textLength, opField_packWord, bField_packWord, Instr.text]
  simp only [List.length_append, List.length_cons, List.length_nil, BitVec.toNat_ofNat]
  simp
  omega
theorem refresh : Statement .refresh := fun _ => by decide
theorem setIntensity (level : Byte) : Statement (.setIntensity level) :=
  fun _ => ⟨rfl, by simp [textLength, encodeWord, Instr.text]⟩
theorem setOn (enable : Bool) : Statement (.setOn enable) :=
  fun _ => ⟨rfl, by simp [textLength, encodeWord, Instr.text]⟩
theorem glyphFor (c : Byte) : Statement (.glyphFor c) := fun _ => ⟨rfl, by simp [textLength, encodeWord, Instr.text]⟩
theorem dotFor (c : Byte) : Statement (.dotFor c) := fun _ => ⟨rfl, by simp [textLength, encodeWord, Instr.text]⟩
theorem gremap (v : Byte) : Statement (.gremap v) := fun _ => ⟨rfl, by simp [textLength, encodeWord, Instr.text]⟩
theorem dremap (v : Byte) : Statement (.dremap v) := fun _ => ⟨rfl, by simp [textLength, encodeWord, Instr.text]⟩
theorem shiftOut (b : Bool) : Statement (.shiftOut b) :=
  fun _ => ⟨rfl, by simp [textLength, encodeWord, Instr.text]⟩
theorem drivePosition (position bits : Byte) : Statement (.drivePosition position bits) :=
  fun _ => ⟨rfl, by simp [textLength, encodeWord, Instr.text]⟩

end Sys2Proof.Laws.EncodeLength
end

