-- ==== Sys2Proof/Laws/ProtocolDriver.lean ====
section
/-! SUPPORT. The pin-writing operations are lists of events: each equals emitting its trace, so that their effect is
`emitAll_eq` of it. -/

namespace Sys2Proof.Machine

@[simp] theorem frame_length (position bits : Byte) : (frame position bits).length = 14 := by
  by_cases h : position.toNat = Config.colon <;> simp [frame, h, selectBits, colonData, digitData]

theorem shiftBit_eq_emitAll (b : Bool) (s : State) : shiftBit b s = emitAll (bitTrace b) s := rfl

theorem shiftBits_eq_emitAll (bs : List Bool) (s : State) : shiftBits bs s = emitAll (bs.flatMap bitTrace) s := by
  induction bs generalizing s with
  | nil => rfl
  | cons b bs ih => simp only [shiftBits, List.flatMap_cons, emitAll_append, ih, shiftBit_eq_emitAll]

theorem driveFrame_eq_emitAll (position bits : Byte) (s : State) :
    driveFrame position bits s = emitAll (driveTrace position bits) s := by
  simp [driveFrame, driveTrace, emitAll_append, shiftBits_eq_emitAll]

theorem refreshPasses_eq_emitAll (i : Nat) (ds : List Nat) (s : State) :
    refreshPasses i ds s = emitAll (passesTrace s.buf i ds) s := by
  induction ds generalizing i s with
  | nil => rfl
  | cons d ds ih =>
    have hbuf : (refreshPass i d s).buf = s.buf := by
      simp [refreshPass, driveFrame_eq_emitAll, emitAll_eq]
    simp only [refreshPasses, ih, hbuf, passesTrace, emitAll_append]
    simp [refreshPass, driveFrame_eq_emitAll]

theorem redraw_eq_emitAll (s : State) : redraw s = emitAll (refreshTrace s.buf) s := by
  simp only [redraw, refreshTrace, emitAll_append, driveFrame_eq_emitAll, refreshPasses_eq_emitAll]

end Sys2Proof.Machine
end

