-- ==== Sys2Proof/Laws/TextEncoder.lean ====
section
/-! SUPPORT. What one character step and one pass of the encoder can do. -/

namespace Sys2Proof.Machine

@[simp] theorem encodePass_nil (g d : Rom) (p : Pass) : encodePass g d [] p = p := rfl

theorem encodePass_stops (g d : Rom) (c : Byte) (text : List Byte) (p : Pass) (h : 5 ≤ p.cursor) :
    encodePass g d (c :: text) p = { p with conditions := p.conditions ++ [.toolong] } := by
  simp [encodePass, h]

theorem encodePass_continues (g d : Rom) (c : Byte) (text : List Byte) (p : Pass) (h : p.cursor < 5) :
    encodePass g d (c :: text) p = encodePass g d text (charStep g d c p) := by
  have : ¬ 5 ≤ p.cursor := by omega
  simp [encodePass, this]

/-- The cursor stays or advances by one. -/
theorem charStep_cursor (g d : Rom) (c : Byte) (p : Pass) :
    (charStep g d c p).cursor = p.cursor ∨ (charStep g d c p).cursor = p.cursor + 1 := by
  unfold charStep colonStep glyphStep
  split <;> [right; split] <;> simp

/-- A character step adds at most one condition, a NOREP for its character and cell. -/
theorem charStep_conditions (g d : Rom) (c : Byte) (p : Pass) :
    (charStep g d c p).conditions = p.conditions ∨
      (charStep g d c p).conditions = p.conditions ++ [.norep c p.cursor] := by
  unfold charStep colonStep glyphStep norepUnless
  split <;> [skip; split] <;> dsimp only <;> split <;> simp

/-- A character step writes the cell at the cursor or the one before it, and no other. -/
theorem charStep_cell (g d : Rom) (c : Byte) (p : Pass) (i : Nat) (h : i ≠ p.cursor) (h' : i ≠ p.cursor - 1) :
    readCell (charStep g d c p).buf i = readCell p.buf i := by
  unfold charStep colonStep glyphStep
  split
  · next hc => rw [hc] at h; exact readCell_writeCell_ne _ _ _ _ (Ne.symm h)
  · dsimp only
    split
    · exact readCell_writeCell_ne _ _ _ _ (Ne.symm h')
    · exact readCell_writeCell_ne _ _ _ _ (Ne.symm h)

/-- The cursor of a pass never decreases. -/
theorem encodePass_cursor_mono (g d : Rom) (text : List Byte) (p : Pass) :
    p.cursor ≤ (encodePass g d text p).cursor := by
  induction text generalizing p with
  | nil => simp
  | cons c text ih =>
    by_cases h : 5 ≤ p.cursor
    · simp [encodePass_stops, h]
    · rw [encodePass_continues _ _ _ _ _ (by omega)]
      have := ih (charStep g d c p)
      rcases charStep_cursor g d c p with hc | hc <;> omega

/-- The cursor of a pass that starts below 6 stays below 6 (rule R13). -/
theorem encodePass_cursor_le (g d : Rom) (text : List Byte) (p : Pass) (h : p.cursor ≤ 5) :
    (encodePass g d text p).cursor ≤ 5 := by
  induction text generalizing p with
  | nil => simpa
  | cons c text ih =>
    by_cases h5 : 5 ≤ p.cursor
    · simpa [encodePass_stops, h5] using h
    · rw [encodePass_continues _ _ _ _ _ (by omega)]
      apply ih
      rcases charStep_cursor g d c p with hc | hc <;> omega

/-- The conditions so far only go in front: a pass from any of them is the pass from none, with them prepended. -/
theorem encodePass_conditions (g d : Rom) (text : List Byte) (p : Pass) :
    encodePass g d text p =
      let r := encodePass g d text { p with conditions := [] }
      { r with conditions := p.conditions ++ r.conditions } := by
  induction text generalizing p with
  | nil => simp
  | cons c text ih =>
    by_cases h : 5 ≤ p.cursor
    · simp [encodePass_stops, h]
    · rw [encodePass_continues _ _ _ _ _ (by omega), encodePass_continues _ _ _ _ _ (by simpa using by omega)]
      rw [ih (charStep g d c p), ih (charStep g d c { p with conditions := [] })]
      have hc : charStep g d c p =
          { charStep g d c { p with conditions := [] } with
            conditions := p.conditions ++ (charStep g d c { p with conditions := [] }).conditions } := by
        unfold charStep colonStep glyphStep
        split <;> [skip; (dsimp only; split)] <;> simp
      rw [hc]
      simp

end Sys2Proof.Machine
end

