-- ==== Sys2Proof/Laws/Step.lean ====
section
/-! SUPPORT. Everything an operation and a step can do, said once. -/

namespace Sys2Proof.Machine

/-- A pin-writing operation that is a list of events. -/
theorem whenConfigured_events (act : State → State) (es : List Event) (s : State) (h : act s = emitAll es s) :
    ∃ es' r, whenConfigured act s =
      { s with pins := linesAfter es' s.pins, trace := s.trace ++ es', results := s.results ++ [r] } := by
  by_cases hc : s.configured = true
  · refine ⟨es, noResult, ?_⟩
    rw [whenConfigured_of_configured _ _ hc, h, emitAll_eq]
    rfl
  · refine ⟨[], ⟨0x00#8, false, [.notconf]⟩, ?_⟩
    rw [whenConfigured_of_unconfigured _ _ (by simpa using hc)]
    simp [complete]

/-- Every operation answers a next state: it may rewrite the buffer and the configuration, its events set the lines
and extend the trace, and it reports one result; nothing else changes. -/
theorem exec_next (i : Instr) (s : State) : ∃ buf configured intensity on es r,
    exec i s = .next { s with
      buf := buf, configured := configured, intensity := intensity, on := on
      pins := linesAfter es s.pins, trace := s.trace ++ es, results := s.results ++ [r] } := by
  have quiet : ∀ (b : Buf) (c : Bool) (l : Byte) (o : Bool) (r : Result),
      ∃ buf configured intensity on es r',
        (.next (complete r { s with buf := b, configured := c, intensity := l, on := o }) : Host.Outcome State Fault Refusal)
          = .next { s with
            buf := buf, configured := configured, intensity := intensity, on := on
            pins := linesAfter es s.pins, trace := s.trace ++ es, results := s.results ++ [r'] } := by
    intro b c l o r
    exact ⟨b, c, l, o, [], r, by simp [complete]⟩
  have pins : ∀ (act : State → State) (es : List Event), act s = emitAll es s →
      ∃ buf configured intensity on es r',
        (.next (whenConfigured act s) : Host.Outcome State Fault Refusal)
          = .next { s with
            buf := buf, configured := configured, intensity := intensity, on := on
            pins := linesAfter es s.pins, trace := s.trace ++ es, results := s.results ++ [r'] } := by
    intro act es h
    obtain ⟨es', r, h'⟩ := whenConfigured_events act es s h
    exact ⟨s.buf, s.configured, s.intensity, s.on, es', r, by rw [h']⟩
  cases i with
  | setup => exact quiet s.buf true s.intensity s.on noResult
  | encodeAt p t => exact quiet _ s.configured s.intensity s.on _
  | encode t => exact quiet _ s.configured s.intensity s.on _
  | refresh => exact pins redraw _ (redraw_eq_emitAll s)
  | setIntensity l => exact quiet s.buf s.configured l s.on noResult
  | setOn o => exact quiet s.buf s.configured s.intensity o noResult
  | glyphFor c => exact quiet s.buf s.configured s.intensity s.on _
  | dotFor c => exact quiet s.buf s.configured s.intensity s.on _
  | gremap v => exact quiet s.buf s.configured s.intensity s.on _
  | dremap v => exact quiet s.buf s.configured s.intensity s.on _
  | shiftOut b => exact pins _ _ (shiftBit_eq_emitAll b s)
  | drivePosition p b => exact pins _ _ (driveFrame_eq_emitAll p b s)

/-- The four things a step can be: nothing (busy, or no whole command presented), the reset event, one operation, or
the refusal of an illegal word. -/
theorem step_cases (s : State) :
    (step s = .next s) ∨ (s.busy = false ∧ s.resetRequest = true ∧ step s = .next (applyReset s)) ∨
      (s.busy = false ∧ s.resetRequest = false ∧
        ((∃ i rest, fetch s.pending = .instr i rest ∧ step s = exec i { s with pending := rest }) ∨
          (∃ e rest, fetch s.pending = .illegal e rest ∧ step s = .next (refuse .illegal { s with pending := rest })))) := by
  unfold step
  cases hb : s.busy
  · cases hr : s.resetRequest
    · cases hf : fetch s.pending with
      | instr i rest => exact .inr (.inr ⟨rfl, rfl, .inl ⟨i, rest, rfl, rfl⟩⟩)
      | illegal e rest => exact .inr (.inr ⟨rfl, rfl, .inr ⟨e, rest, rfl, rfl⟩⟩)
      | incomplete => exact .inl rfl
    · exact .inr (.inl ⟨rfl, rfl, rfl⟩)
  · exact .inl rfl

end Sys2Proof.Machine
end

