-- ==== Sys2Proof/Tests/Slice0.lean ====
section
/-! SUPPORT. Tests, their expected results taken from spec/95_test_vectors.md (its ids stand beside them), and for
every statement with hypotheses a witness: concrete inputs that meet all of them together. -/

namespace Sys2Proof.Tests

open Sys2Proof.Machine

/-! ### Fixtures (95_test_vectors.md section 2) -/

/-- `GLYPH_T`, by character. -/
def glyphEntries : List (Nat × Byte) :=
  [(0x2E, 0x01#8), (0x30, 0x7E#8), (0x31, 0x30#8), (0x32, 0x6D#8), (0x33, 0x79#8), (0x34, 0x33#8),
    (0x35, 0x5B#8), (0x36, 0x5F#8), (0x37, 0x70#8), (0x38, 0x7F#8), (0x39, 0x7B#8)] ++
  [(0x41, 0x77#8), (0x42, 0x1F#8), (0x43, 0x4E#8), (0x44, 0x3D#8), (0x45, 0x4F#8), (0x46, 0x47#8)]

/-- `DOT_T`, by character. -/
def dotEntries : List (Nat × Byte) := [(0x27, 0x02#8), (0x2E, 0x01#8), (0x3A, 0x03#8)]

/-- The table with these entries, every other entry 0x00. -/
def tableOf (entries : List (Nat × Byte)) : Rom :=
  Vector.ofFn (fun i => (entries.lookup (i.val + 0x20)).getD 0x00#8)

/-- A configured block with the fixture tables, `buf = [0xEE, ...]`, the lines low. -/
def block : State where
  buf := #v[0xEE#8, 0xEE#8, 0xEE#8, 0xEE#8, 0xEE#8]
  pins := ⟨.low, .low, .low⟩
  configured := true
  intensity := 0x55#8
  on := true
  busy := false
  glyphRom := tableOf glyphEntries
  dotRom := tableOf dotEntries
  pending := []
  resetRequest := false
  resets := 1
  trace := []
  results := []

/-- The same block before SETUP, its lines never written. -/
def fresh : State := { block with configured := false, pins := ⟨.U, .U, .U⟩ }

/-- The block with this buffer. -/
def withBuf (b : Buf) : State := { block with buf := b }

/-- The block with these bytes presented. -/
def presented (bytes : List Byte) : State := { block with pending := bytes }

/-- The block whose glyph table has this entry for '1' and this one for '.'. -/
def withOne (v : Byte) : State := { block with glyphRom := tableOf [(0x2E, 0x01#8), (0x31, v)] }

/-- The operation answers a next state with this property. -/
def execs (i : Instr) (s : State) (p : State → Bool) : Bool :=
  match exec i s with
  | .next t => p t
  | .fault _ => false
  | .refused _ => false

/-- The step answers a next state with this property. -/
def steps (s : State) (p : State → Bool) : Bool :=
  match step s with
  | .next t => p t
  | .fault _ => false
  | .refused _ => false

/-- What an observer compares: every part of the state that an operation may write. -/
def seen (s : State) : (Buf × Pins × Bool) × (Byte × Bool) × List Event × List Result :=
  ((s.buf, s.pins, s.configured), (s.intensity, s.on), s.trace, s.results)

/-- The operation answers what this state shows. -/
def shows (i : Instr) (s t : State) : Bool := execs i s (fun u => seen u == seen t)

/-- The operation's one result record is this one and no other part of the state changes. -/
def answersOnly (i : Instr) (s : State) (r : Result) : Bool := shows i s (complete r s)

/-- A row of section 3.4: start state's buffer, operation, value, conditions, buffer after. -/
structure EncodeRow where
  before : Buf
  instr : Instr
  value : Byte
  conditions : List Condition
  after : Buf

/-- The row holds, and nothing but the buffer and the result changes. -/
def EncodeRow.holds (r : EncodeRow) : Bool :=
  shows r.instr (withBuf r.before) (complete ⟨r.value, false, r.conditions⟩ (withBuf r.after))

/-- The start buffer of section 3.4. -/
def ee : Buf := #v[0xEE#8, 0xEE#8, 0xEE#8, 0xEE#8, 0xEE#8]

/-! ### Well-formed operations (rule R61, "at most 255 characters") -/

theorem test_text_of_256_is_ill_formed :
    (Instr.encodeAt 0x00#8 (List.replicate 256 0x41#8)).check = .error .textTooLong ∧
    (Instr.encode (List.replicate 256 0x41#8)).check = .error .textTooLong ∧
    (Instr.encode (List.replicate 255 0x41#8)).check = .ok () := by decide +kernel

/-! ### Decoding, a word of every row written out from rule R59 (section 3.7) -/

/-- V-CMD-1 to V-CMD-12. -/
theorem test_decode_refresh_config :
    fetch [0b00000000#8, 0x00#8, 0x00#8] = .instr .setup [] ∧
    fetch [0b00110000#8, 0x00#8, 0x00#8] = .instr .refresh [] ∧
    fetch [0b01000000#8, 0x00#8, 0x07#8] = .instr (.setIntensity 0x07#8) [] ∧
    fetch [0b01010000#8, 0x00#8, 0x01#8] = .instr (.setOn true) [] ∧
    fetch [0b01010000#8, 0x00#8, 0x00#8] = .instr (.setOn false) [] := by decide

theorem test_decode_text_encoder :
    fetch [0b00010000#8, 0x00#8, 0x05#8, 0x31#8, 0x32#8, 0x3A#8, 0x33#8, 0x34#8, 0xAA#8] =
      .instr (.encodeAt 0x00#8 [0x31#8, 0x32#8, 0x3A#8, 0x33#8, 0x34#8]) [0xAA#8] ∧
    fetch [0b00100000#8, 0x00#8, 0x02#8, 0x2E#8, 0x31#8] = .instr (.encode [0x2E#8, 0x31#8]) [] ∧
    fetch [0x10#8, 0x00#8, 0x00#8] = .instr (.encodeAt 0x00#8 []) [] := by decide

theorem test_decode_lookup_remap :
    fetch [0b10000000#8, 0x00#8, 0x38#8] = .instr (.glyphFor 0x38#8) [] ∧
    fetch [0b10010000#8, 0x00#8, 0x3A#8] = .instr (.dotFor 0x3A#8) [] ∧
    fetch [0b10100000#8, 0x00#8, 0x30#8] = .instr (.gremap 0x30#8) [] ∧
    fetch [0b10110000#8, 0x00#8, 0x01#8] = .instr (.dremap 0x01#8) [] := by decide

theorem test_decode_protocol_driver :
    fetch [0b11000000#8, 0x00#8, 0x01#8] = .instr (.shiftOut true) [] ∧
    fetch [0b11010000#8, 0x02#8, 0x03#8] = .instr (.drivePosition 0x02#8 0x03#8) [] := by decide

/-- V-CMD-13 to V-CMD-18. -/
theorem test_decode_refuses :
    fetch [0x60#8, 0x00#8, 0x00#8] = .illegal .reservedOpcode [] ∧
    fetch [0xF0#8, 0x00#8, 0x00#8] = .illegal .reservedOpcode [] ∧
    fetch [0x31#8, 0x00#8, 0x00#8] = .illegal .nonzeroZ [] ∧
    fetch [0x30#8, 0x01#8, 0x00#8] = .illegal .nonzeroA [] ∧
    fetch [0x50#8, 0x00#8, 0x02#8] = .illegal .nonzeroB [] ∧
    fetch [0xC0#8, 0x00#8, 0x03#8] = .illegal .nonzeroB [] := by decide

/-- V-CMD-19: ENCODE with `a` = 1 is illegal, its two text bytes are discarded, nothing else changes. -/
theorem test_illegal_word_discards_its_text :
    steps (presented [0x20#8, 0x01#8, 0x02#8, 0x2E#8, 0x31#8, 0x30#8])
      (fun t => seen t == seen (complete ⟨0x00#8, false, [.illegal]⟩ block) && t.pending == [0x30#8]) = true := by decide

/-- V-CMD-12: the table's numbering of a word, bit 0 the least significant bit. -/
theorem test_table_word : decodeTableWord 24 0xD00203 = some (.drivePosition 0x02#8 0x03#8) ∧
    decodeTableWord 24 0x600000 = none := by decide

/-- V-CMD-12 as one step: the placed DRIVE_POSITION runs first, 88 events. -/
theorem test_placed_word_runs :
    steps (State.withFetchWord block 24 0xD00203) (fun t => t.trace.length == 88 && t.pending == []) = true := by
  decide +kernel

/-! ### Lookup and remap (sections 3.1 to 3.3) -/

/-- V-LK-1 to V-LK-5, V-LK-8 to V-LK-11. -/
theorem test_glyph_for :
    [(0x1F#8, 0x00#8, false), (0x7F#8, 0x00#8, false), (0xFF#8, 0x00#8, false), (0x00#8, 0x00#8, false),
      (0x20#8, 0x00#8, false), (0x38#8, 0x7F#8, true), (0x31#8, 0x30#8, true), (0x61#8, 0x00#8, false),
      (0x7E#8, 0x00#8, false)].all
      (fun (c, p, f) => answersOnly (.glyphFor c) block ⟨p, f, []⟩) = true := by decide

/-- V-LK-7, V-LK-15: the two ends of the table are read, and an entry 0x80 is found. -/
theorem test_glyph_for_ends_of_table :
    let s := { block with glyphRom := tableOf [(0x20, 0x11#8), (0x7E, 0x80#8)] }
    answersOnly (.glyphFor 0x20#8) s ⟨0x11#8, true, []⟩ = true ∧
    answersOnly (.glyphFor 0x7E#8) s ⟨0x80#8, true, []⟩ = true := by decide

/-- V-LK-12 to V-LK-14. -/
theorem test_dot_for :
    [(0x3A#8, 0x03#8, true), (0x33#8, 0x00#8, false), (0x80#8, 0x00#8, false)].all
      (fun (c, p, f) => answersOnly (.dotFor c) block ⟨p, f, []⟩) = true := by decide

/-- V-GR-1 to V-GR-14. -/
theorem test_gremap :
    [(0x00#8, 0x00#8), (0x01#8, 0x01#8), (0x02#8, 0x10#8), (0x04#8, 0x20#8), (0x08#8, 0x40#8), (0x10#8, 0x02#8),
      (0x20#8, 0x04#8), (0x40#8, 0x08#8), (0x80#8, 0x00#8), (0xFF#8, 0x7F#8), (0x81#8, 0x01#8), (0xAA#8, 0x54#8),
      (0x55#8, 0x2B#8), (0x30#8, 0x06#8)].all
      (fun (v, r) => answersOnly (.gremap v) block ⟨r, false, []⟩) = true := by decide

/-- V-DR-1 to V-DR-8. -/
theorem test_dremap :
    [(0x00#8, 0x00#8), (0x01#8, 0x02#8), (0x02#8, 0x01#8), (0x03#8, 0x03#8), (0xFF#8, 0x03#8), (0xFE#8, 0x01#8),
      (0xFD#8, 0x02#8), (0x80#8, 0x00#8)].all
      (fun (v, r) => answersOnly (.dremap v) block ⟨r, false, []⟩) = true := by decide

/-! ### The text encoder (section 3.4) -/

/-- V-ENC-1 to V-ENC-18 but the long ones. -/
def encodeRowsPlain : List EncodeRow :=
  [⟨ee, .encodeAt 0x00#8 [], 0x00#8, [], ee⟩,
   ⟨ee, .encodeAt 0x00#8 [0x31#8, 0x32#8, 0x33#8, 0x34#8, 0x35#8], 0x05#8, [.norep 0x33#8 2],
     #v[0x06#8, 0x6D#8, 0x00#8, 0x17#8, 0x5B#8]⟩,
   ⟨ee, .encodeAt 0x00#8 [0x31#8, 0x2E#8, 0x31#8], 0x03#8, [.norep 0x31#8 2],
     #v[0x06#8, 0x01#8, 0x00#8, 0xEE#8, 0xEE#8]⟩,
   ⟨ee, .encodeAt 0x00#8 [0x41#8, 0x42#8, 0x43#8, 0x44#8, 0x45#8, 0x46#8], 0x05#8, [.norep 0x43#8 2, .toolong],
     #v[0x3F#8, 0x73#8, 0x00#8, 0x67#8, 0x79#8]⟩,
   ⟨ee, .encodeAt 0x00#8 [0x01#8], 0x01#8, [.norep 0x01#8 0], #v[0x00#8, 0xEE#8, 0xEE#8, 0xEE#8, 0xEE#8]⟩,
   ⟨ee, .encodeAt 0x00#8 [0x31#8, 0x32#8, 0x3A#8, 0x33#8, 0x34#8], 0x05#8, [],
     #v[0x06#8, 0x6D#8, 0x03#8, 0x4F#8, 0x17#8]⟩] ++
  [⟨ee, .encodeAt 0x03#8 [0x41#8, 0x42#8, 0x31#8], 0x02#8, [.toolong],
     #v[0xEE#8, 0xEE#8, 0xEE#8, 0x3F#8, 0x73#8]⟩,
   ⟨ee, .encodeAt 0x05#8 [0x31#8], 0x00#8, [.toolong], ee⟩,
   ⟨ee, .encodeAt 200#8 [0x31#8, 0x32#8], 0x00#8, [.toolong], ee⟩,
   ⟨ee, .encodeAt 0x05#8 [], 0x00#8, [], ee⟩,
   ⟨ee, .encodeAt 0x00#8 [0xFF#8], 0x01#8, [.norep 0xFF#8 0], #v[0x00#8, 0xEE#8, 0xEE#8, 0xEE#8, 0xEE#8]⟩,
   ⟨ee, .encodeAt 0x00#8 [0x00#8], 0x01#8, [.norep 0x00#8 0], #v[0x00#8, 0xEE#8, 0xEE#8, 0xEE#8, 0xEE#8]⟩]

/-- V-ENC-3, 8, 9, 19 to 22, 24 to 29, 32: the skinny-1 merge and what looks like it. -/
def encodeRowsMerge : List EncodeRow :=
  [⟨ee, .encodeAt 0x00#8 [0x2E#8, 0x31#8], 0x01#8, [], #v[0x07#8, 0xEE#8, 0xEE#8, 0xEE#8, 0xEE#8]⟩,
   ⟨ee, .encodeAt 0x00#8 [0x2E#8, 0x31#8, 0x31#8], 0x02#8, [], #v[0x07#8, 0x06#8, 0xEE#8, 0xEE#8, 0xEE#8]⟩,
   ⟨ee, .encodeAt 0x00#8 [0x31#8, 0x32#8, 0x33#8, 0x34#8, 0x2E#8, 0x31#8], 0x05#8, [.norep 0x33#8 2, .toolong],
     #v[0x06#8, 0x6D#8, 0x00#8, 0x17#8, 0x01#8]⟩,
   ⟨ee, .encodeAt 0x01#8 [0x31#8], 0x01#8, [], #v[0xEE#8, 0x06#8, 0xEE#8, 0xEE#8, 0xEE#8]⟩,
   ⟨#v[0x01#8, 0xEE#8, 0xEE#8, 0xEE#8, 0xEE#8], .encodeAt 0x01#8 [0x31#8], 0x00#8, [],
     #v[0x07#8, 0xEE#8, 0xEE#8, 0xEE#8, 0xEE#8]⟩,
   ⟨#v[0xEE#8, 0xEE#8, 0x01#8, 0xEE#8, 0xEE#8], .encodeAt 0x03#8 [0x31#8], 0x00#8, [],
     #v[0xEE#8, 0xEE#8, 0x07#8, 0xEE#8, 0xEE#8]⟩] ++
  [⟨ee, .encodeAt 0x02#8 [0x27#8, 0x31#8], 0x01#8, [], #v[0xEE#8, 0xEE#8, 0x07#8, 0xEE#8, 0xEE#8]⟩,
   ⟨ee, .encodeAt 0x00#8 [0x38#8, 0x2E#8, 0x3A#8, 0x31#8], 0x04#8, [], #v[0x7F#8, 0x01#8, 0x03#8, 0x06#8, 0xEE#8]⟩,
   ⟨ee, .encodeAt 0x04#8 [0x31#8], 0x01#8, [], #v[0xEE#8, 0xEE#8, 0xEE#8, 0xEE#8, 0x06#8]⟩,
   ⟨ee, .encodeAt 0x01#8 [0x2E#8, 0x31#8], 0x02#8, [.norep 0x31#8 2], #v[0xEE#8, 0x01#8, 0x00#8, 0xEE#8, 0xEE#8]⟩,
   ⟨ee, .encodeAt 0x03#8 [0x2E#8, 0x31#8], 0x01#8, [], #v[0xEE#8, 0xEE#8, 0xEE#8, 0x07#8, 0xEE#8]⟩,
   ⟨ee, .encodeAt 0x04#8 [0x2E#8, 0x31#8], 0x01#8, [.toolong], #v[0xEE#8, 0xEE#8, 0xEE#8, 0xEE#8, 0x01#8]⟩,
   ⟨ee, .encodeAt 0x00#8 [0x2D#8, 0x31#8], 0x02#8, [.norep 0x2D#8 0], #v[0x00#8, 0x06#8, 0xEE#8, 0xEE#8, 0xEE#8]⟩]

theorem test_encode_at_plain : encodeRowsPlain.all EncodeRow.holds = true := by decide +kernel
theorem test_encode_at_merge : encodeRowsMerge.all EncodeRow.holds = true := by decide +kernel

/-- V-ENC-31. -/
theorem test_encode :
    EncodeRow.holds ⟨ee, .encode [0x2E#8, 0x31#8], 0x01#8, [], #v[0x07#8, 0xEE#8, 0xEE#8, 0xEE#8, 0xEE#8]⟩ = true := by
  decide

/-! ### The protocol driver (section 3.5) -/

/-- V-DP-1 to V-DP-13. -/
theorem test_frames :
    frame 0#8 0x7F#8 = [true, false, false, false, false] ++ [false, false] ++ [true, true, true, true, true, true, true] ∧
    frame 0#8 0x06#8 = [true, false, false, false, false] ++ [false, false] ++ [false, true, true, false, false, false, false] ∧
    frame 4#8 0x01#8 = [false, false, false, false, true] ++ [false, false] ++ [true, false, false, false, false, false, false] ∧
    frame 2#8 0x01#8 = [false, false, true, false, false] ++ [true, false] ++ List.replicate 7 false ∧
    frame 2#8 0xFD#8 = [false, false, true, false, false] ++ [true, false] ++ List.replicate 7 false ∧
    frame 6#8 0x00#8 = List.replicate 14 false ∧
    frame 255#8 0x01#8 = List.replicate 7 false ++ [true, false, false, false, false, false, false] := by decide

/-- V-SH-2: six events, the strobe untouched. -/
theorem test_shift_out :
    execs (.shiftOut true) { block with pins := ⟨.high, .low, .low⟩ } (fun t =>
      t.pins == ⟨.high, .low, .high⟩ &&
      t.trace == [.pin .DAT true, .waitBit, .pin .CLK true, .waitBit, .pin .CLK false, .waitBit]) = true := by decide

/-- V-DP-2: the full trace is 88 events, its 14 bits 10000 00 0110000, the lines low at the end. -/
theorem test_drive_position :
    execs (.drivePosition 0x00#8 0x06#8) block (fun t =>
      t.pins == ⟨.low, .low, .low⟩ && t.trace.length == 88 && t.trace.take 2 == [.pin .STB false, .pin .DAT true] &&
      receivedFrames .rising .rising block.pins t.trace ==
        some [[.high, .low, .low, .low, .low, .low, .low, .low, .high, .high, .low, .low, .low, .low]]) = true := by
  decide +kernel

/-- P3 step 3: refused before SETUP, no pin written. -/
theorem test_drive_position_before_setup :
    answersOnly (.drivePosition 0x03#8 0x0E#8) fresh ⟨0x00#8, false, [.notconf]⟩ = true := by decide

/-! ### Refresh and configuration (section 3.6) -/

/-- V-RF-1: 533 events, the five settle delays, the lines low. -/
theorem test_refresh :
    execs .refresh (withBuf #v[0x06#8, 0x6D#8, 0x03#8, 0x4F#8, 0x17#8]) (fun t =>
      t.pins == ⟨.low, .low, .low⟩ && t.trace.length == 533 &&
      t.trace.filterMap (fun e => match e with
        | .waitUs n => some n
        | .pin _ _ => none
        | .waitBit => none) == [5000, 2000, 2000, 2000, 5000]) = true := by
  simp only [execs, exec, execRefresh, whenConfigured, redraw_eq_emitAll, emitAll_eq]
  decide +kernel

/-- V-RF-1: the bits clocked out, six frames of fourteen. -/
theorem test_refresh_bits :
    execs .refresh (withBuf #v[0x06#8, 0x6D#8, 0x03#8, 0x4F#8, 0x17#8]) (fun t =>
      t.trace.filterMap (fun e => match e with
        | .pin .DAT b => some b
        | .pin .CLK _ => none
        | .pin .STB _ => none
        | .waitUs _ => none
        | .waitBit => none) ==
      ([0b1000000#7, 0b0110000#7, 0b0100000#7, 0b1011011#7, 0b0010011#7, 0b0000000#7, 0b0001000#7, 0b1111001#7,
        0b0000100#7, 0b1110100#7, 0b0000000#7, 0b0000000#7].flatMap (fun v =>
          [v.getLsbD 6, v.getLsbD 5, v.getLsbD 4, v.getLsbD 3, v.getLsbD 2, v.getLsbD 1, v.getLsbD 0]))) = true := by
  simp only [execs, exec, execRefresh, whenConfigured, redraw_eq_emitAll, emitAll_eq]
  decide +kernel

/-- V-RF-4. -/
theorem test_refresh_before_setup : answersOnly .refresh fresh ⟨0x00#8, false, [.notconf]⟩ = true := by decide

/-- V-CF-3: the pins stay U. -/
theorem test_setup :
    shows .setup fresh (complete ⟨0x00#8, false, []⟩ { fresh with configured := true }) = true := by decide

/-- V-CF-1. -/
theorem test_set_intensity :
    shows (.setIntensity 0xFF#8) block (complete ⟨0x00#8, false, []⟩ { block with intensity := 0xFF#8 }) = true := by
  decide

/-- V-CF-2. -/
theorem test_set_on :
    shows (.setOn false) block (complete ⟨0x00#8, false, []⟩ { block with on := false }) = true := by decide

/-- V-CMD-21 to V-CMD-23. -/
theorem test_result_word :
    resultWord ⟨0x05#8, false, [.norep 0x43#8 2, .toolong]⟩ = 0x0503#16 ∧
    resultWord ⟨0x7F#8, true, []⟩ = 0x7F80#16 ∧
    resultWord ⟨0x00#8, false, [.notconf]⟩ = 0x0008#16 := by decide

/-- Rule R66's examples of written commands. -/
theorem test_written :
    written (.drivePosition 0x02#8 0x03#8) = "DRIVE_POSITION 0x02, 0x03" ∧
    written (.encodeAt 0x00#8 [0x31#8, 0x01#8]) = "ENCODE_AT 0x00, \"1\\x01\"" ∧ written .setup = "SETUP" := by decide

/-! ### Witnesses: inputs that meet each statement's hypotheses -/

theorem witness_StepRunsTheDecodedCommand :
    Ready (presented [0xD0#8, 0x02#8, 0x03#8, 0x30#8]) ∧
    fetch (presented [0xD0#8, 0x02#8, 0x03#8, 0x30#8]).pending = .instr (.drivePosition 0x02#8 0x03#8) [0x30#8] := by
  decide

theorem witness_DecodeInvertsEncode :
    (Instr.encodeAt 0xFF#8 (List.replicate 255 0x31#8)).WellFormed ∧ (Instr.encode []).WellFormed := by decide +kernel

theorem witness_EncodeInvertsDecode :
    fetch [0x20#8, 0x00#8, 0x01#8, 0x41#8, 0x99#8] = .instr (.encode [0x41#8]) [0x99#8] := by decide

theorem witness_LegalWordsAreTheTableRows :
    decodeWord 0xD0FFFF#24 [] = .ok (.drivePosition 0xFF#8 0xFF#8) ∧
    (⟨"SET_ON", 0xFFFFFE#24, 0x500000#24⟩ : OpRow) ∈ opcodeTable ∧
    OpRow.holds ⟨"SET_ON", 0xFFFFFE#24, 0x500000#24⟩ 0x500001#24 = true := by decide

/-- One word for each clause of rule R64, the last with the two text bytes that are discarded. -/
theorem witness_IllegalWordIsRefused :
    (IllegalWord 0x600000#24 ∧ IllegalWord 0x700000#24 ∧ IllegalWord 0xE00000#24 ∧ IllegalWord 0xF00000#24) ∧
    (IllegalWord 0x310000#24 ∧ IllegalWord 0x300100#24 ∧ IllegalWord 0x000001#24 ∧ IllegalWord 0x500002#24) ∧
    Ready (presented [0x20#8, 0x01#8, 0x02#8, 0x2E#8, 0x31#8]) ∧ IllegalWord 0x200102#24 ∧
    [0x2E#8, 0x31#8].length = (if opField 0x200102#24 = 0x1#4 ∨ opField 0x200102#24 = 0x2#4
      then (bField 0x200102#24).toNat else 0) ∧
    (presented [0x20#8, 0x01#8, 0x02#8, 0x2E#8, 0x31#8]).pending = commandBytes 0x200102#24 ++ ([0x2E#8, 0x31#8] ++ []) := by
  refine ⟨⟨?_, ?_, ?_, ?_⟩, ⟨?_, ?_, ?_, ?_⟩, by decide, ?_, by decide, by decide⟩ <;> dsimp only [IllegalWord] <;> decide

theorem witness_LegalWordIsAccepted :
    ¬ IllegalWord 0x500001#24 ∧ ¬ IllegalWord 0xC00001#24 ∧ ¬ IllegalWord 0x10FFFF#24 ∧
    (List.replicate 255 0x00#8).length = (if opField 0x10FFFF#24 = 0x1#4 ∨ opField 0x10FFFF#24 = 0x2#4
      then (bField 0x10FFFF#24).toNat else 0) := by
  dsimp only [IllegalWord]
  decide +kernel

theorem witness_BusyBlockTakesNoCommand : ({ block with busy := true } : State).busy = true := by decide

theorem witness_IncompleteCommandWaits :
    block.resetRequest = false ∧ fetch block.pending = .incomplete ∧
    fetch (presented [0x20#8, 0x00#8, 0x02#8, 0x2E#8]).pending = .incomplete := by decide

theorem witness_CommandStreamRunsInOrder :
    Ready (present [.setup, .encode [0x41#8], .refresh] block) ∧
    (∀ i ∈ [Instr.setup, .encode [0x41#8], .refresh], i.WellFormed) ∧
    (present [.setup, .encode [0x41#8], .refresh] block).pending =
      commandStream [.setup, .encode [0x41#8], .refresh] ++ [] := by decide

theorem witness_PlacedWordRunsNext :
    decodeTableWord 24 0x1000FF = some (.encodeAt 0x00#8 (List.replicate 255 0x00#8)) := by decide +kernel

/-- The boundary characters of the range, and a legal table. -/
theorem witness_GlyphForAnswers :
    (0x20 ≤ (0x20#8).toNat ∧ (0x20#8).toNat ≤ 0x7E) ∧ (0x20 ≤ (0x7E#8).toNat ∧ (0x7E#8).toNat ≤ 0x7E) ∧
    ((0x1F#8).toNat < 0x20 ∨ 0x7E < (0x1F#8).toNat) ∧ ((0x7F#8).toNat < 0x20 ∨ 0x7E < (0x7F#8).toNat) ∧
    LegalGlyphRom block.glyphRom := by decide

theorem witness_DotForAnswers :
    (0x20 ≤ (0x20#8).toNat ∧ (0x20#8).toNat ≤ 0x7E) ∧ (0x20 ≤ (0x7E#8).toNat ∧ (0x7E#8).toNat ≤ 0x7E) ∧
    ((0x1F#8).toNat < 0x20 ∨ 0x7E < (0x1F#8).toNat) ∧ ((0xFF#8).toNat < 0x20 ∨ 0x7E < (0xFF#8).toNat) := by decide

/-- The values the corner clauses of the remaps speak of. -/
theorem witness_GremapPermutesBits : gremap 0x81#8 = 0x01#8 ∧ gremap 0x00#8 = 0x00#8 ∧ gremap 0x02#8 ≠ 0x01#8 := by
  decide

theorem witness_DremapSwapsBits : dremap 0x02#8 = 0x01#8 ∧ dremap 0x00#8 = 0x00#8 ∧ (dremap 0xFF#8).getLsbD 2 = false := by
  decide

/-- One case for each clause: start 5 and 255; the colon cell; a merge at 1, 3 and 4; no merge at 0 and 4. The last
conjuncts are the clauses' own hypotheses about the rest of the text. -/
theorem witness_EncodeAtOneCharacterAtATime :
    (5 ≤ (5#8).toNat ∧ 5 ≤ (255#8).toNat) ∧ (2#8).toNat = 2 ∧
    (let s := withBuf #v[0x01#8, 0xEE#8, 0x01#8, 0x01#8, 0xEE#8];
      ((1#8).toNat < 5 ∧ (1#8).toNat ≠ 2 ∧ 0 < (1#8).toNat ∧ readCell s.buf ((1#8).toNat - 1) = 0x01#8) ∧
      ((3#8).toNat < 5 ∧ (3#8).toNat ≠ 2 ∧ readCell s.buf ((3#8).toNat - 1) = 0x01#8) ∧
      ((4#8).toNat < 5 ∧ (4#8).toNat ≠ 2 ∧ readCell s.buf ((4#8).toNat - 1) = 0x01#8)) ∧
    ((0#8).toNat < 5 ∧ (0#8).toNat ≠ 2 ∧ ¬ 0 < (0#8).toNat) ∧
    ((4#8).toNat < 5 ∧ (4#8).toNat ≠ 2 ∧ readCell block.buf ((4#8).toNat - 1) ≠ 0x01#8) ∧
    Encodes { block with buf := writeCell block.buf 2 (dremap (patternIn block.dotRom 0x3A#8)) } (2#8 + 1) [] 0x00#8 []
      (writeCell block.buf 2 0x03#8) ∧
    Encodes { block with buf := writeCell block.buf (4 - 1) (0x01#8 ||| gremap (patternIn block.glyphRom 0x31#8)) } 4#8 []
      0x00#8 [] (writeCell block.buf 3 0x07#8) ∧
    Encodes { block with buf := writeCell block.buf 4 (gremap (patternIn block.glyphRom 0x31#8)) } (4#8 + 1) [] 0x00#8 []
      (writeCell block.buf 4 0x06#8) :=
  ⟨by decide, by decide, by decide, by decide, by decide, rfl, rfl, rfl⟩

/-- The same boundaries for one character. -/
theorem witness_SkinnyOneMerges :
    ((1#8).toNat < 5 ∧ (1#8).toNat ≠ 2 ∧ 0 < (1#8).toNat ∧
      readCell (withBuf #v[0x01#8, 0xEE#8, 0x01#8, 0xEE#8, 0xEE#8]).buf ((1#8).toNat - 1) = 0x01#8) ∧
    ((3#8).toNat < 5 ∧ (3#8).toNat ≠ 2 ∧
      readCell (withBuf #v[0x01#8, 0xEE#8, 0x01#8, 0xEE#8, 0xEE#8]).buf ((3#8).toNat - 1) = 0x01#8) ∧
    ((0#8).toNat < 5 ∧ (0#8).toNat ≠ 2 ∧ ¬ 0 < (0#8).toNat) ∧
    ((1#8).toNat < 5 ∧ (1#8).toNat ≠ 2 ∧ readCell block.buf ((1#8).toNat - 1) ≠ 0x01#8) ∧
    (2#8).toNat = 2 ∧ 5 ≤ (5#8).toNat ∧ 5 ≤ (255#8).toNat := by decide

/-- A cell below the start and a cell from the end of the text on. -/
theorem witness_EncodeLeavesOtherCells :
    Encodes block 2#8 [0x3A#8] 0x01#8 [] (writeCell block.buf 2 0x03#8) ∧
    (0 < 5 ∧ 0 + 1 < (2#8).toNat) ∧ (3 < 5 ∧ (2#8).toNat + (0x01#8).toNat ≤ 3) :=
  ⟨rfl, by decide, by decide⟩

theorem witness_NorepsPrecedeTooLong :
    Encodes block 0x04#8 [0x1F#8, 0x31#8] 0x01#8 [.norep 0x1F#8 4, .toolong] (writeCell block.buf 4 0x00#8) := rfl

/-- With TOOLONG at its boundary, and without: a text that ends exactly at 5. -/
theorem witness_TooLongExactly :
    Encodes block 0x04#8 [0x2E#8, 0x31#8] 0x01#8 [.toolong] (writeCell block.buf 4 0x01#8) ∧
    (1 < [0x2E#8, 0x31#8].length ∧
      Encodes block 0x04#8 ([0x2E#8, 0x31#8].take 1) 0x01#8 [] (writeCell block.buf 4 0x01#8) ∧
      5 ≤ (0x04#8).toNat + (0x01#8).toNat) ∧
    Encodes block 0x04#8 [0x2E#8] 0x01#8 [] (writeCell block.buf 4 0x01#8) :=
  ⟨rfl, ⟨by decide, rfl, by decide⟩, rfl⟩

theorem witness_DotThenOneSharesACell : LegalGlyphRom block.glyphRom ∧ LegalGlyphRom (withOne 0x00#8).glyphRom := by decide

/-- A '1' that remaps to 0x00, one that remaps to 0x01, and the fixture's. -/
theorem witness_DegenerateOneMergesForever :
    (LegalGlyphRom (withOne 0x80#8).glyphRom ∧ gremap (patternIn (withOne 0x80#8).glyphRom 0x31#8) = 0x00#8) ∧
    (LegalGlyphRom (withOne 0x01#8).glyphRom ∧ gremap (patternIn (withOne 0x01#8).glyphRom 0x31#8) = 0x01#8) ∧
    (LegalGlyphRom block.glyphRom ∧ ¬ (gremap (patternIn block.glyphRom 0x31#8) = 0x00#8 ∨
      gremap (patternIn block.glyphRom 0x31#8) = 0x01#8)) := by decide

theorem witness_UnrepresentableCharacterBlanks :
    ((0#8).toNat < 5 ∧ ((0x1F#8).toNat < 0x20 ∨ 0x7E < (0x1F#8).toNat)) ∧
    ((2#8).toNat < 5 ∧ ((0x7F#8).toNat < 0x20 ∨ 0x7E < (0x7F#8).toNat)) ∧
    ((4#8).toNat < 5 ∧ ((0xFF#8).toNat < 0x20 ∨ 0x7E < (0xFF#8).toNat)) := by decide

theorem witness_ShiftOutSendsOneBit : block.configured = true ∧ fresh.configured = false := by decide

theorem witness_PinWritersNeedSetup :
    fresh.configured = false ∧ (∃ b, Instr.shiftOut true = .shiftOut b) ∧
    (∃ p b, Instr.drivePosition 0x00#8 0x00#8 = .drivePosition p b) := ⟨rfl, ⟨_, rfl⟩, ⟨_, _, rfl⟩⟩

theorem witness_FrameSlots : (2#8).toNat = 2 ∧ (1#8).toNat ≠ 2 ∧ (3#8).toNat ≠ 2 ∧ (6#8).toNat ≠ 2 ∧ (255#8).toNat ≠ 2 := by
  decide

theorem witness_FrameCarriesTableBits : (0#8).toNat ≠ 2 ∧ (6#8).toNat ≠ 2 ∧ (255#8).toNat ≠ 2 := by decide

theorem witness_DrivePositionSendsFrame : block.configured = true ∧ fresh.configured = false := by decide

theorem witness_DrivePositionTraceSize : block.configured = true := by decide

theorem witness_DrivePositionIsDisciplined :
    block.configured = true ∧ block.pins.clk = .low ∧
    ({ block with pins := ⟨.high, .low, .U⟩ } : State).pins.clk = .low := by decide

/-- CLK 0 with the strobe high (the rising reading) and low; CLK not 0. -/
theorem witness_DrivePositionDeliversFrame :
    block.configured = true ∧ (block.pins.clk = .low ∧ block.pins.stb ≠ .high) ∧
    (({ block with pins := ⟨.high, .low, .U⟩ } : State).pins.clk = .low ∧ StrobeReading.rising = .rising) ∧
    ({ block with pins := ⟨.U, .U, .U⟩ } : State).pins.clk ≠ .low := by decide

theorem witness_RefreshRedraws :
    block.configured = true ∧ fresh.configured = false ∧ block.pins.clk = .low ∧ block.pins.stb ≠ .high := by decide

/-- Right after reset and SETUP, every line unknown. -/
theorem witness_RefreshDeliversLaterFrames : ({ fresh with configured := true } : State).configured = true := by decide

theorem witness_RefreshTwiceRepeats : block.configured = true := by decide

theorem witness_SetupConfigures : block.configured = true := by decide

theorem witness_MinimumDurations : block.configured = true := by decide

/-- An operation that changes each column's state. -/
theorem witness_OnlyListedWriters :
    (∃ t, exec (.encode [0x41#8]) block = .next t ∧ t.buf ≠ block.buf) ∧
    (∃ t, exec (.shiftOut true) block = .next t ∧ t.pins ≠ block.pins ∧ t.trace ≠ block.trace) ∧
    (∃ t, exec .setup fresh = .next t ∧ t.configured ≠ fresh.configured) ∧
    (∃ t, exec (.setIntensity 0xAA#8) block = .next t ∧ t.intensity ≠ block.intensity) ∧
    (∃ t, exec (.setOn false) block = .next t ∧ t.on ≠ block.on) :=
  ⟨⟨_, rfl, by decide⟩, ⟨_, rfl, by decide⟩, ⟨_, rfl, by decide⟩, ⟨_, rfl, by decide⟩, ⟨_, rfl, by decide⟩⟩

theorem witness_TablesAndConfiguredPersist :
    (∃ t, step (presented [0x30#8, 0x00#8, 0x00#8]) = .next t) ∧
    (presented [0x30#8, 0x00#8, 0x00#8]).configured = true ∧
    (presented [0x30#8, 0x00#8, 0x00#8]).resetRequest = false := ⟨⟨_, rfl⟩, rfl, rfl⟩

theorem witness_ResetEvent : (requestReset block).busy = false ∧ (requestReset block).resetRequest = true := by decide

/-- A state a run reaches with lines written, and one before SETUP. -/
theorem witness_InvariantKeptByStep :
    (Inv (presented [0x30#8, 0x00#8, 0x00#8]) ∧ ∃ t, step (presented [0x30#8, 0x00#8, 0x00#8]) = .next t) ∧ Inv fresh :=
  ⟨⟨⟨by decide, by decide, by decide, by decide⟩, ⟨_, rfl⟩⟩, ⟨by decide, by decide, by decide, by decide⟩⟩

theorem witness_SmallStepsMakeTheBigStep :
    block.configured = true ∧ block.busy = false ∧ 87 < jobEvents (.drive 0x02#8 0x03#8) ∧ 532 < jobEvents .refresh := by
  decide

theorem witness_TickSendsOneRedraw :
    let cmds := [Instr.encode [0x31#8, 0x32#8], .setOn false, .setIntensity 0x01#8, .encodeAt 0x04#8 []]
    Ready (present (tick cmds) block) ∧ (present (tick cmds) block).configured = true ∧
    (∀ i ∈ cmds, tickCommand i = true ∧ i.WellFormed) ∧
    (present (tick cmds) block).pending = commandStream (tick cmds) ++ [] := by decide

end Sys2Proof.Tests
end

/-! Proofs about the whole machine: every operation and every step answers a next state. -/

namespace Sys2Proof.Machine

/-- The part of `exec_next` that says what an operation reports: one result record, and the events it sends
(rules R8, R18, R62). -/
theorem exec_reports (i : Instr) (s : State) : ∃ t r es,
    exec i s = .next t ∧ t.results = s.results ++ [r] ∧ t.trace = s.trace ++ es ∧ t.pins = linesAfter es s.pins := by
  obtain ⟨buf, configured, intensity, on, es, r, hexec⟩ := exec_next i s
  exact ⟨_, r, es, hexec, rfl, rfl, rfl⟩

/-- No step of the block faults or is refused (rules R110, R115): of the four things a step can be, only running an
operation is not a next state on its face, and `exec` answers one. -/
theorem step_answers (s : State) : ∃ t, step s = .next t := by
  obtain hwait | ⟨-, -, hreset⟩ | ⟨-, -, ⟨i, rest, -, hrun⟩ | ⟨-, rest, -, hillegal⟩⟩ := step_cases s
  · exact ⟨s, hwait⟩
  · exact ⟨applyReset s, hreset⟩
  · obtain ⟨t, -, -, hexec, -⟩ := exec_reports i { s with pending := rest }
    exact ⟨t, hrun.trans hexec⟩
  · exact ⟨refuse .illegal { s with pending := rest }, hillegal⟩

/-- Settles O44: each half is what one of the two functions can do, `exec_reports` for an operation and
`step_answers` for a step. -/
theorem everyOperationAnswers : Obligations.EveryOperationAnswers :=
  ⟨exec_reports, step_answers⟩

end Sys2Proof.Machine

/-! Proofs about the state: what each operation writes, and what every step keeps. -/

namespace Sys2Proof.Machine

/-! ### What one step is, case by case (rules R22, R40, R61) -/

/-- A running block takes no command from the port (rule R22, D15). -/
theorem step_of_busy (s : State) (hbusy : s.busy = true) : step s = .next s := by
  simp [step, hbusy]

/-- A running block takes no second sequencer operation (rule R22, D15). -/
theorem microAccept_of_busy (job : Job) (m : Micro) (hbusy : m.core.busy = true) : microAccept job m = m := by
  simp [microAccept, hbusy]

/-- An idle block that holds a whole legal command runs it (rules R40, R61). -/
theorem step_of_fetch_instr (s : State) (i : Instr) (rest : List Byte) (hready : Ready s)
    (hfetch : fetch s.pending = .instr i rest) : step s = exec i { s with pending := rest } := by
  obtain ⟨hidle, hnoReset⟩ := hready
  simp [step, hidle, hnoReset, hfetch]

/-- Settles O1: `step_of_fetch_instr`. -/
theorem stepRunsTheDecodedCommand : Obligations.StepRunsTheDecodedCommand :=
  step_of_fetch_instr

/-- Settles O8: the port by `step_of_busy`, the event-by-event machine by `microAccept_of_busy`. -/
theorem busyBlockTakesNoCommand : Obligations.BusyBlockTakesNoCommand :=
  fun s hbusy => ⟨step_of_busy s hbusy, fun job p => microAccept_of_busy job ⟨s, p⟩ hbusy⟩

/-! ### The state at reset (rules R16, R25) -/

/-- Cell by cell, the buffer at reset is `BUF_RESET` (D11). -/
theorem readCell_bufAtReset (i : Nat) (h : i < 5) : readCell bufAtReset i = Config.bufReset i := by
  interval_cases i <;> rfl

theorem reset_glyphRom_getElem (i : Nat) (h : i < 95) : State.reset.glyphRom[i] = Config.glyphRomEntry i := by
  simp [State.reset]

theorem reset_dotRom_getElem (i : Nat) (h : i < 95) : State.reset.dotRom[i] = Config.dotEntry i := by
  simp [State.reset]

/-- Settles O47: the flags, the lines and the boundary fields are `State.reset`'s own; cells and tables by the three
lemmas above. -/
theorem resetLeaves : Obligations.ResetLeaves :=
  ⟨rfl, rfl, rfl, readCell_bufAtReset,
    fun i => ⟨reset_glyphRom_getElem i i.isLt, reset_dotRom_getElem i i.isLt⟩, rfl, rfl, rfl⟩

/-- The free bytes of the glyph table never break rule R16: (a) fixes entry 0x00, and (b) masks the free byte of
entry 0x0E down to its bit 7. -/
theorem reset_glyphRom_legal : LegalGlyphRom State.reset.glyphRom := by
  refine ⟨?_, ?_⟩
  · rw [reset_glyphRom_getElem]
    rfl
  · rw [reset_glyphRom_getElem]
    apply BitVec.eq_of_getLsbD_eq
    intro i hi
    interval_cases i <;> simp [Config.glyphRomEntry]

/-- Lines that nothing has written since reset are at rest (rule R18). -/
theorem linesAtRest_pinsAtReset : LinesAtRest pinsAtReset := ⟨nofun, nofun⟩

/-- Settles O49: the table by `reset_glyphRom_legal`; no line is written and no operation runs. -/
theorem invariantAtReset : Obligations.InvariantAtReset where
  glyphRom := reset_glyphRom_legal
  lines := linesAtRest_pinsAtReset
  idle := rfl
  unwritten := fun _ => rfl

/-! ### Traces that leave the clock and the strobe at rest (rules R90, R91, R100) -/

/-- Sending the events finds the clock and the strobe at rest and leaves them so. -/
def KeepsLinesAtRest (es : List Event) : Prop :=
  ∀ pins : Pins, LinesAtRest pins → LinesAtRest (linesAfter es pins)

theorem KeepsLinesAtRest.nil : KeepsLinesAtRest [] := fun _ h => h

theorem KeepsLinesAtRest.append {as bs : List Event} (ha : KeepsLinesAtRest as) (hb : KeepsLinesAtRest bs) :
    KeepsLinesAtRest (as ++ bs) := by
  intro pins h
  rw [linesAfter_append]
  exact hb _ (ha _ h)

theorem KeepsLinesAtRest.flatMap {α : Type} (f : α → List Event) (hf : ∀ x, KeepsLinesAtRest (f x)) (xs : List α) :
    KeepsLinesAtRest (xs.flatMap f) := by
  induction xs with
  | nil => exact .nil
  | cons x xs ih => exact (hf x).append ih

/-- One bit ends with the clock low and does not touch the strobe (rule R90). -/
theorem KeepsLinesAtRest.bitTrace (b : Bool) : KeepsLinesAtRest (bitTrace b) := by
  rintro pins ⟨-, hstb⟩
  exact ⟨nofun, hstb⟩

theorem KeepsLinesAtRest.strobeLow : KeepsLinesAtRest [.pin .STB false] := by
  rintro pins ⟨hclk, -⟩
  exact ⟨hclk, nofun⟩

/-- The strobe pulse ends with the strobe low and does not touch the clock (rule R91). -/
theorem KeepsLinesAtRest.strobePulse : KeepsLinesAtRest [.pin .STB true, .waitBit, .pin .STB false] := by
  rintro pins ⟨hclk, -⟩
  exact ⟨hclk, nofun⟩

theorem KeepsLinesAtRest.waitUs (n : Nat) : KeepsLinesAtRest [.waitUs n] := fun _ h => h

theorem KeepsLinesAtRest.driveTrace (position bits : Byte) : KeepsLinesAtRest (driveTrace position bits) :=
  (KeepsLinesAtRest.strobeLow.append (.flatMap _ .bitTrace _)).append .strobePulse

theorem KeepsLinesAtRest.passesTrace (buf : Buf) (i : Nat) (ds : List Nat) :
    KeepsLinesAtRest (passesTrace buf i ds) := by
  induction ds generalizing i with
  | nil => exact .nil
  | cons d ds ih => exact ((KeepsLinesAtRest.driveTrace _ _).append (.waitUs d)).append (ih (i + 1))

theorem KeepsLinesAtRest.refreshTrace (buf : Buf) : KeepsLinesAtRest (refreshTrace buf) :=
  (KeepsLinesAtRest.passesTrace _ _ _).append (.driveTrace _ _)

/-! ### What an operation can write (rule R10) -/

/-- The operations that write the lines (rules R10, R117). -/
abbrev PinWriter (i : Instr) : Prop :=
  (∃ b, i = .shiftOut b) ∨ (∃ p b, i = .drivePosition p b) ∨ i = .refresh

/-- The "written by" column of rule R10, read by rows: the next state that an operation answers from `s`, up to the
values it computes. -/
inductive Writes (s : State) : Instr → State → Prop where
  /-- Nothing is written but the result record. -/
  | reports (i : Instr) (r : Result) : Writes s i (complete r s)
  | encodeAt (p : Byte) (x : List Byte) (b : Buf) (r : Result) : Writes s (.encodeAt p x) (complete r { s with buf := b })
  | encode (x : List Byte) (b : Buf) (r : Result) : Writes s (.encode x) (complete r { s with buf := b })
  | setup (r : Result) : Writes s .setup (complete r { s with configured := true })
  | setIntensity (l : Byte) (r : Result) : Writes s (.setIntensity l) (complete r { s with intensity := l })
  | setOn (e : Bool) (r : Result) : Writes s (.setOn e) (complete r { s with on := e })
  /-- A pin writer sends events, after SETUP only. -/
  | sends (i : Instr) (es : List Event) (r : Result) (hi : PinWriter i) (hc : s.configured = true)
      (hes : KeepsLinesAtRest es) : Writes s i (complete r (emitAll es s))

/-- A pin writer either sends its events or is refused (rules R19, R117). -/
theorem writes_whenConfigured (i : Instr) (act : State → State) (es : List Event) (s : State) (hi : PinWriter i)
    (hes : KeepsLinesAtRest es) (hact : act s = emitAll es s) : Writes s i (whenConfigured act s) := by
  cases hc : s.configured with
  | true =>
    rw [whenConfigured_of_configured _ _ hc, hact]
    exact .sends i es _ hi hc hes
  | false =>
    rw [whenConfigured_of_unconfigured _ _ hc]
    exact .reports i _

/-- Every operation answers a next state that its row of rule R10 allows. -/
theorem exec_writes (i : Instr) (s : State) : ∃ t, exec i s = .next t ∧ Writes s i t := by
  cases i with
  | setup => exact ⟨_, rfl, .setup _⟩
  | encodeAt p x => exact ⟨_, rfl, .encodeAt p x _ _⟩
  | encode x => exact ⟨_, rfl, .encode x _ _⟩
  | setIntensity l => exact ⟨_, rfl, .setIntensity l _⟩
  | setOn e => exact ⟨_, rfl, .setOn e _⟩
  | glyphFor c => exact ⟨_, rfl, .reports _ _⟩
  | dotFor c => exact ⟨_, rfl, .reports _ _⟩
  | gremap v => exact ⟨_, rfl, .reports _ _⟩
  | dremap v => exact ⟨_, rfl, .reports _ _⟩
  | shiftOut b =>
    exact ⟨_, rfl, writes_whenConfigured _ _ _ s (.inl ⟨b, rfl⟩) (.bitTrace b) (shiftBit_eq_emitAll b s)⟩
  | drivePosition p b =>
    exact ⟨_, rfl, writes_whenConfigured _ _ _ s (.inr (.inl ⟨p, b, rfl⟩)) (.driveTrace p b)
      (driveFrame_eq_emitAll p b s)⟩
  | refresh =>
    exact ⟨_, rfl, writes_whenConfigured _ _ _ s (.inr (.inr rfl)) (.refreshTrace s.buf) (redraw_eq_emitAll s)⟩

theorem writes_of_exec (i : Instr) (s t : State) (hexec : exec i s = .next t) : Writes s i t := by
  obtain ⟨u, hu, hwrites⟩ := exec_writes i s
  obtain rfl : u = t := by simpa [hu] using hexec
  exact hwrites

/-- Settles O45: a column of rule R10 is read off the rows of `Writes`. -/
theorem onlyListedWriters : Obligations.OnlyListedWriters := by
  intro i s t hexec
  cases writes_of_exec i s t hexec with
  | reports _ r => simp
  | encodeAt p x b r => simp
  | encode x b r => simp
  | setup r => simp
  | setIntensity l r => simp
  | setOn e r => simp
  | sends _ es r hi hc hes => exact ⟨by simp [emitAll_eq], fun _ => hi, by simp [emitAll_eq]⟩

/-! ### What every step keeps (rules R16, R17, R19, R22, R117) -/

/-- No operation writes a table or clears `configured` (rules R16, R17, R19). -/
theorem Writes.keeps_tables_and_configured {i : Instr} {s t : State} (h : Writes s i t) :
    t.glyphRom = s.glyphRom ∧ t.dotRom = s.dotRom ∧ (s.configured = true → t.configured = true) := by
  cases h with
  | setup r => exact ⟨rfl, rfl, fun _ => rfl⟩
  | sends _ es r hi hc hes => simp [emitAll_eq]
  | _ => exact ⟨rfl, rfl, id⟩

/-- What a step can answer: the state itself, the reset event when one is asked for, what an operation writes, or the
refusal of an illegal word. -/
theorem step_next_cases {s t : State} (hstep : step s = .next t) :
    t = s ∨ (s.resetRequest = true ∧ t = applyReset s) ∨
      ∃ rest, (∃ i, Writes { s with pending := rest } i t) ∨ t = refuse .illegal { s with pending := rest } := by
  obtain hwait | ⟨-, hasked, hreset⟩ | ⟨-, -, ⟨i, rest, -, hrun⟩ | ⟨-, rest, -, hillegal⟩⟩ := step_cases s
  · exact .inl (by simpa [hwait] using hstep.symm)
  · exact .inr (.inl ⟨hasked, by simpa [hreset] using hstep.symm⟩)
  · exact .inr (.inr ⟨rest, .inl ⟨i, writes_of_exec _ _ _ (hrun ▸ hstep)⟩⟩)
  · exact .inr (.inr ⟨rest, .inr (by simpa [hillegal] using hstep.symm)⟩)

/-- Settles O46: of the four answers of a step only the reset event clears `configured`, and that one has to be asked
for. -/
theorem tablesAndConfiguredPersist : Obligations.TablesAndConfiguredPersist := by
  intro s t hstep
  obtain rfl | ⟨hasked, rfl⟩ | ⟨rest, ⟨i, hwrites⟩ | rfl⟩ := step_next_cases hstep
  · exact ⟨rfl, rfl, fun hc _ => hc⟩
  · exact ⟨rfl, rfl, fun _ hnot => by simp [hasked] at hnot⟩
  · obtain ⟨hglyph, hdot, hconf⟩ := hwrites.keeps_tables_and_configured
    exact ⟨hglyph, hdot, fun hc _ => hconf hc⟩
  · exact ⟨rfl, rfl, fun hc _ => hc⟩

/-- The invariant speaks of four fields, and of `configured` only while it is 0. -/
theorem inv_of_fields_eq {s t : State} (h : Inv s) (hglyph : t.glyphRom = s.glyphRom) (hpins : t.pins = s.pins)
    (hbusy : t.busy = s.busy) (hconf : t.configured = false → s.configured = false) : Inv t where
  glyphRom := hglyph ▸ h.glyphRom
  lines := hpins ▸ h.lines
  idle := hbusy ▸ h.idle
  unwritten := fun hc => hpins ▸ h.unwritten (hconf hc)

/-- Every operation keeps the invariant. Only a pin writer moves the lines; it runs after SETUP, and its events leave
them at rest. -/
theorem Writes.keeps_inv {i : Instr} {s t : State} (hinv : Inv s) (h : Writes s i t) : Inv t := by
  cases h with
  | setup r => exact inv_of_fields_eq hinv rfl rfl rfl nofun
  | sends _ es r hi hc hes =>
    rw [emitAll_eq]
    exact ⟨hinv.glyphRom, hes _ hinv.lines, hinv.idle, fun hc' => by simp [hc] at hc'⟩
  | _ => exact inv_of_fields_eq hinv rfl rfl rfl id

theorem inv_applyReset {s : State} (h : Inv s) : Inv (applyReset s) :=
  ⟨h.glyphRom, linesAtRest_pinsAtReset, rfl, fun _ => rfl⟩

/-- Settles O50: the reset event restores the lines and the flags, an operation keeps the invariant by
`Writes.keeps_inv`, and a refused word writes only its result record. -/
theorem invariantKeptByStep : Obligations.InvariantKeptByStep := by
  intro s t hinv hstep
  obtain rfl | ⟨-, rfl⟩ | ⟨rest, ⟨i, hwrites⟩ | rfl⟩ := step_next_cases hstep
  · exact hinv
  · exact inv_applyReset hinv
  · have htaken : Inv { s with pending := rest } := inv_of_fields_eq hinv rfl rfl rfl id
    exact hwrites.keeps_inv htaken
  · exact inv_of_fields_eq hinv rfl rfl rfl id

end Sys2Proof.Machine

/-! Proofs about the text encoder: one character step in the terms of rules R70, R80, R81 and R112, and the shared
cell of a decimal point and a '1'. -/

namespace Sys2Proof.Machine

/-! ### A lookup and its NOREP (rules R70, R71, R112) -/

@[simp] theorem lookup_pattern (rom : Rom) (c : Byte) : (lookup rom c).pattern = patternIn rom c := by
  by_cases h : Config.chLo ≤ c.toNat ∧ c.toNat ≤ Config.chHi <;> simp [lookup, tableIndex, patternIn, memRead, h]

@[simp] theorem lookup_found (rom : Rom) (c : Byte) : (lookup rom c).found = isFound (patternIn rom c) := by
  by_cases h : Config.chLo ≤ c.toNat ∧ c.toNat ≤ Config.chHi <;>
    simp [lookup, tableIndex, patternIn, memRead, isFound, h]

/-- NOREP is signalled exactly for the sentinel pattern. -/
@[simp] theorem norepUnless_isFound (pattern c : Byte) (cell : Nat) :
    norepUnless (isFound pattern) c cell = norepFor pattern c cell := by
  by_cases h : pattern = 0x00#8 <;> simp [norepUnless, isFound, norepFor, h]

/-! ### One glyph cell (rules R80, R81) -/

theorem charStep_of_merges (g d : Rom) (c : Byte) (p : Pass) (hcell : p.cursor ≠ 2)
    (hmerge : mergeArmed c p.cursor p.buf = true) :
    charStep g d c p =
      { p with
        buf := writeCell p.buf (p.cursor - 1) (readCell p.buf (p.cursor - 1) ||| gremap (patternIn g c))
        conditions := p.conditions ++ norepFor (patternIn g c) c p.cursor } := by
  simp [charStep, glyphStep, hcell, hmerge]

theorem charStep_of_not_merges (g d : Rom) (c : Byte) (p : Pass) (hcell : p.cursor ≠ 2)
    (hmerge : mergeArmed c p.cursor p.buf = false) :
    charStep g d c p =
      ⟨p.cursor + 1, writeCell p.buf p.cursor (gremap (patternIn g c)),
        p.conditions ++ norepFor (patternIn g c) c p.cursor⟩ := by
  simp [charStep, glyphStep, hcell, hmerge]

/-- A '1' behind a stored decimal point is the merging case of rule R81. -/
theorem mergeArmed_one (cursor : Nat) (buf : Buf) (hpos : 0 < cursor) (hprev : readCell buf (cursor - 1) = 0x01#8) :
    mergeArmed 0x31#8 cursor buf = true := by
  simp [mergeArmed, hpos, hprev]

@[simp] theorem mergeArmed_zero (c : Byte) (buf : Buf) : mergeArmed c 0 buf = false := by
  simp [mergeArmed]

/-- What an ENCODE_AT answers is read off its pass (rule R80). -/
theorem encodes_of_passOf {s : State} {start : Byte} {text : List Byte} {p : Pass} (hpass : passOf start text s = p) :
    Encodes s start text (BitVec.ofNat 8 (p.cursor - start.toNat)) p.conditions p.buf := by
  subst hpass
  rfl

@[simp] theorem writeCell_writeCell_same (buf : Buf) (i : Nat) (v w : Byte) :
    writeCell (writeCell buf i v) i w = writeCell buf i w := by
  simp [writeCell]

/-! ### The decimal point of a legal table (rule R16 (b)) -/

/-- GREMAP reads bits 6..0 only (rule R72, D5). -/
theorem gremap_eq_of_low_bits (v w : Byte) (h : v.extractLsb' 0 7 = w.extractLsb' 0 7) : gremap v = gremap w := by
  have hfield : ∀ start len, start + len ≤ 7 → v.extractLsb' start len = w.extractLsb' start len := by
    intro start len hle
    have hsub := congrArg (BitVec.extractLsb' start len) h
    simpa only [BitVec.extractLsb'_extractLsb'_of_le hle, Nat.zero_add] using hsub
  simp only [gremap, hfield 1 3 (by decide), hfield 4 3 (by decide), hfield 0 1 (by decide)]

/-- Bits 6..0 = 0000001 give the decimal point alone (rule R72). -/
theorem gremap_of_low_bits_eq_one (v : Byte) (h : v.extractLsb' 0 7 = 0b0000001#7) : gremap v = 0x01#8 :=
  gremap_eq_of_low_bits v 0x01#8 h

theorem ne_sentinel_of_low_bits_eq_one (v : Byte) (h : v.extractLsb' 0 7 = 0b0000001#7) : v ≠ 0x00#8 := by
  rintro rfl
  exact absurd h (by decide)

/-- Entry 0x0E of the table is the pattern of '.'. -/
theorem patternIn_dot (rom : Rom) : patternIn rom 0x2E#8 = rom[0x0E] := rfl

/-- On a legal table '.' at cell 0 stores the decimal point alone, and signals nothing. -/
theorem charStep_dot_at_zero (g d : Rom) (hlegal : LegalGlyphRom g) (b : Buf) :
    charStep g d 0x2E#8 ⟨0, b, []⟩ = ⟨1, writeCell b 0 0x01#8, []⟩ := by
  obtain ⟨-, hdot⟩ := hlegal
  rw [charStep_of_not_merges _ _ _ _ (by simp) (mergeArmed_zero _ _), patternIn_dot, gremap_of_low_bits_eq_one _ hdot]
  simp [norepFor, ne_sentinel_of_low_bits_eq_one _ hdot]

/-- A '1' at cell 1 behind a decimal point goes into cell 0, and the cursor stays. -/
theorem charStep_one_after_dot (g d : Rom) (b : Buf) :
    charStep g d 0x31#8 ⟨1, writeCell b 0 0x01#8, []⟩ =
      ⟨1, writeCell b 0 (gremap (patternIn g 0x31#8) ||| 0x01#8), norepFor (patternIn g 0x31#8) 0x31#8 1⟩ := by
  have hprev : readCell (writeCell b 0 0x01#8) (1 - 1) = 0x01#8 := readCell_writeCell_same b 0 _ (by decide)
  rw [charStep_of_merges _ _ _ _ (by simp) (mergeArmed_one 1 _ (by decide) hprev), hprev, BitVec.or_comm]
  simp

/-- Settles O24: the decimal point takes cell 0, and the '1' merges into it. -/
theorem dotThenOneSharesACell : Obligations.DotThenOneSharesACell := by
  intro s hlegal
  have hpass : passOf 0x00#8 [0x2E#8, 0x31#8] s =
      ⟨1, writeCell s.buf 0 (gremap (patternIn s.glyphRom 0x31#8) ||| 0x01#8),
        norepFor (patternIn s.glyphRom 0x31#8) 0x31#8 1⟩ :=
    calc passOf 0x00#8 [0x2E#8, 0x31#8] s
      _ = encodePass s.glyphRom s.dotRom [0x31#8] (charStep s.glyphRom s.dotRom 0x2E#8 ⟨0, s.buf, []⟩) :=
          encodePass_continues _ _ _ _ _ (by simp)
      _ = encodePass s.glyphRom s.dotRom [0x31#8] ⟨1, writeCell s.buf 0 0x01#8, []⟩ := by
          rw [charStep_dot_at_zero _ _ hlegal]
      _ = charStep s.glyphRom s.dotRom 0x31#8 ⟨1, writeCell s.buf 0 0x01#8, []⟩ :=
          encodePass_continues _ _ _ _ _ (by simp)
      _ = _ := charStep_one_after_dot _ _ _
  exact encodes_of_passOf hpass

end Sys2Proof.Machine

/-! Proofs about the event-by-event machine: the events it sends along a run, and the run of each job. -/

namespace Sys2Proof.Machine

/-! ### Runs of the sequencer (rule R98) -/

/-- From progress `p` the sequencer sends exactly `es` and stands, still running, at `q`. -/
def Sends (buf : Buf) : List Event → Progress → Progress → Prop
  | [], p, q => p = q
  | e :: es, p, q => progressEvent p buf = e ∧ ∃ p', advance p = some p' ∧ Sends buf es p' q

theorem Sends.trans {buf : Buf} {as bs : List Event} {p q r : Progress} (ha : Sends buf as p q)
    (hb : Sends buf bs q r) : Sends buf (as ++ bs) p r := by
  induction as generalizing p with
  | nil => obtain rfl : p = q := ha; exact hb
  | cons e as ih =>
    obtain ⟨he, p', hp', ha'⟩ := ha
    exact ⟨he, p', hp', ih ha'⟩

theorem microStep_of_advance {s : State} {p q : Progress} (h : advance p = some q) :
    microStep ⟨s, some p⟩ = ⟨emit (progressEvent p s.buf) s, some q⟩ := by
  simp [microStep, h]

theorem microStep_of_done {s : State} {p : Progress} (h : advance p = none) :
    microStep ⟨s, some p⟩ = ⟨complete noResult { emit (progressEvent p s.buf) s with busy := false }, none⟩ := by
  simp [microStep, h]

theorem microRun_add (m n : Nat) (x : Micro) : microRun (m + n) x = microRun n (microRun m x) := by
  induction m generalizing x with
  | zero => simp [microRun]
  | succ m ih => rw [Nat.add_right_comm]; exact ih (microStep x)

/-- A run's events are emitted and nothing else happens. -/
theorem microRun_of_sends {es : List Event} {s : State} {p q : Progress} (h : Sends s.buf es p q) :
    microRun es.length ⟨s, some p⟩ = ⟨emitAll es s, some q⟩ := by
  induction es generalizing s p with
  | nil => obtain rfl : p = q := h; rfl
  | cons e es ih =>
    obtain ⟨rfl, p', hp', h'⟩ := h
    rw [List.length_cons, microRun, microStep_of_advance hp', emitAll_cons]
    exact ih h'

/-- Along a run the block stays busy (rule R22). -/
theorem microRun_busy_of_sends {es : List Event} {s : State} {p q : Progress} (h : Sends s.buf es p q) (n : Nat)
    (hn : n ≤ es.length) : (microRun n ⟨s, some p⟩).core.busy = s.busy := by
  induction n generalizing es s p with
  | zero => rfl
  | succ n ih =>
    cases es with
    | nil => simp at hn
    | cons e es =>
      obtain ⟨-, p', hp', h'⟩ := h
      rw [microRun, microStep_of_advance hp']
      exact ih (es := es) h' (by simpa using hn)

/-! ### One frame (rules R90, R91, R94) -/

@[simp] theorem jobFrame_length (job : Job) (pass : Nat) (buf : Buf) : (jobFrame job pass buf).length = 14 := by
  cases job with
  | drive position bits => exact frame_length position bits
  | refresh => rw [jobFrame]; split <;> exact frame_length _ _

/-- The progress value after the last delay of a bit. -/
def afterBit (job : Job) (pass k : Nat) : Progress :=
  if k < 13 then ⟨job, pass, k + 1, .dat⟩ else ⟨job, pass, k, .stbHi⟩

/-- Bit `k` of the frame is sent by its six phases. -/
theorem sends_bit (buf : Buf) (job : Job) (pass k : Nat) :
    Sends buf (bitTrace ((jobFrame job pass buf).getD k false)) ⟨job, pass, k, .dat⟩ (afterBit job pass k) := by
  refine ⟨rfl, _, rfl, rfl, _, rfl, rfl, _, rfl, rfl, _, rfl, rfl, _, rfl, rfl, afterBit job pass k, ?_, rfl⟩
  simp only [advance, afterBit]
  split <;> rfl

/-- The bits of the frame from index `k` on. -/
theorem sends_bits (buf : Buf) (job : Job) (pass k : Nat) (hk : k ≤ 13) :
    Sends buf (((jobFrame job pass buf).drop k).flatMap bitTrace) ⟨job, pass, k, .dat⟩ ⟨job, pass, 13, .stbHi⟩ := by
  have hlt : k < (jobFrame job pass buf).length := by rw [jobFrame_length]; omega
  have hbit := sends_bit buf job pass k
  rw [List.drop_eq_getElem_cons hlt, List.flatMap_cons, ← List.getD_eq_getElem _ false hlt]
  by_cases hlast : k = 13
  · subst hlast
    rw [List.drop_of_length_le (by simp)]
    exact hbit.trans rfl
  · rw [afterBit, if_pos (by omega)] at hbit
    exact hbit.trans (sends_bits buf job pass (k + 1) (by omega))
termination_by 13 - k

/-- A frame's trace without its last event, the fall of the strobe (rule R94). -/
def frameTraceInit (bits : List Bool) : List Event :=
  [.pin .STB false] ++ bits.flatMap bitTrace ++ [.pin .STB true, .waitBit]

theorem driveTrace_eq_frameTraceInit (position bits : Byte) :
    driveTrace position bits = frameTraceInit (frame position bits) ++ [.pin .STB false] := by
  simp [driveTrace, frameTraceInit]

/-- A frame is sent up to the fall of the strobe, whatever bit index the frame before left. -/
theorem sends_frameTraceInit (buf : Buf) (job : Job) (pass k : Nat) :
    Sends buf (frameTraceInit (jobFrame job pass buf)) ⟨job, pass, k, .stbLow⟩ ⟨job, pass, 13, .stbEnd⟩ := by
  have hlow : Sends buf [.pin .STB false] ⟨job, pass, k, .stbLow⟩ ⟨job, pass, 0, .dat⟩ := ⟨rfl, _, rfl, rfl⟩
  have hbits : Sends buf ((jobFrame job pass buf).flatMap bitTrace) ⟨job, pass, 0, .dat⟩ ⟨job, pass, 13, .stbHi⟩ :=
    sends_bits buf job pass 0 (by decide)
  have hpulse : Sends buf [.pin .STB true, .waitBit] ⟨job, pass, 13, .stbHi⟩ ⟨job, pass, 13, .stbEnd⟩ :=
    ⟨rfl, _, rfl, rfl, _, rfl, rfl⟩
  exact (hlow.trans hbits).trans hpulse

/-! ### The passes of a REFRESH (rules R98, R100) -/

theorem jobFrame_refresh_of_lt (pass : Nat) (buf : Buf) (h : pass < 5) :
    jobFrame .refresh pass buf = frame (BitVec.ofNat 8 pass) (readCell buf pass) := if_pos h

/-- One of the first five frames and its settle delay. -/
theorem sends_pass (buf : Buf) (pass k : Nat) (h : pass < 5) :
    Sends buf (driveTrace (BitVec.ofNat 8 pass) (readCell buf pass) ++ [.waitUs (Config.settle.getD pass 0)])
      ⟨.refresh, pass, k, .stbLow⟩ ⟨.refresh, pass + 1, 13, .stbLow⟩ := by
  have hframe := sends_frameTraceInit buf .refresh pass k
  rw [jobFrame_refresh_of_lt pass buf h] at hframe
  have hfall : Sends buf [.pin .STB false] ⟨.refresh, pass, 13, .stbEnd⟩ ⟨.refresh, pass, 13, .settle⟩ :=
    ⟨rfl, _, if_pos h, rfl⟩
  have hsettle : Sends buf [.waitUs (Config.settle.getD pass 0)] ⟨.refresh, pass, 13, .settle⟩
      ⟨.refresh, pass + 1, 13, .stbLow⟩ := ⟨rfl, _, rfl, rfl⟩
  rw [driveTrace_eq_frameTraceInit]
  exact (hframe.trans hfall).trans hsettle

/-- The passes from `pass` on, up to the blank frame. -/
theorem sends_passesTrace (buf : Buf) (ds : List Nat) (pass k : Nat) (hpass : pass ≤ 5)
    (hds : Config.settle.drop pass = ds) :
    ∃ k', Sends buf (passesTrace buf pass ds) ⟨.refresh, pass, k, .stbLow⟩ ⟨.refresh, 5, k', .stbLow⟩ := by
  induction ds generalizing pass k with
  | nil =>
    obtain rfl : pass = 5 := by
      have := List.drop_eq_nil_iff.mp hds
      exact Nat.le_antisymm hpass this
    exact ⟨k, rfl⟩
  | cons d ds ih =>
    have hlt : pass < Config.settle.length := by
      by_contra hge
      simp [List.drop_of_length_le (Nat.le_of_not_lt hge)] at hds
    rw [List.drop_eq_getElem_cons hlt, List.cons.injEq, ← List.getD_eq_getElem _ 0 hlt] at hds
    obtain ⟨rfl, hrest⟩ := hds
    obtain ⟨k', hpasses⟩ := ih (pass + 1) 13 hlt hrest
    exact ⟨k', (sends_pass buf pass k hlt).trans hpasses⟩

/-! ### A whole job (rules R91, R98, R100) -/

/-- The trace of a job (rules R94, R100). -/
def jobTrace (job : Job) (buf : Buf) : List Event :=
  match job with
  | .drive position bits => driveTrace position bits
  | .refresh => refreshTrace buf

/-- The big step of a job sends its trace and reports no result. -/
theorem exec_jobInstr (job : Job) (s : State) (hconf : s.configured = true) :
    exec (jobInstr job) s = .next (complete noResult (emitAll (jobTrace job s.buf) s)) := by
  cases job with
  | drive position bits =>
    exact congrArg Host.Outcome.next
      ((whenConfigured_of_configured _ _ hconf).trans (congrArg _ (driveFrame_eq_emitAll position bits s)))
  | refresh =>
    exact congrArg Host.Outcome.next
      ((whenConfigured_of_configured _ _ hconf).trans (congrArg _ (redraw_eq_emitAll s)))

theorem driveTrace_length (position bits : Byte) : (driveTrace position bits).length = 88 := by
  simp [driveTrace, bitTrace, List.length_flatMap]

theorem passesTrace_length (buf : Buf) (i : Nat) (ds : List Nat) : (passesTrace buf i ds).length = 89 * ds.length := by
  induction ds generalizing i with
  | nil => rfl
  | cons d ds ih => simp [passesTrace, driveTrace_length, ih]; omega

theorem jobTrace_length (job : Job) (buf : Buf) : (jobTrace job buf).length = jobEvents job := by
  cases job with
  | drive position bits => exact driveTrace_length position bits
  | refresh => simp [jobTrace, refreshTrace, passesTrace_length, driveTrace_length, jobEvents]

/-- From its start a job sends its trace up to the last event, the fall of the strobe, with which it is done. -/
theorem sends_jobTrace (job : Job) (buf : Buf) : ∃ es q,
    Sends buf es ⟨job, 0, 0, .stbLow⟩ q ∧ jobTrace job buf = es ++ [progressEvent q buf] ∧ advance q = none := by
  cases job with
  | drive position bits =>
    exact ⟨_, _, sends_frameTraceInit buf (.drive position bits) 0 0, driveTrace_eq_frameTraceInit position bits, rfl⟩
  | refresh =>
    obtain ⟨k, hpasses⟩ := sends_passesTrace buf Config.settle 0 0 (by decide) rfl
    refine ⟨_, _, hpasses.trans (sends_frameTraceInit buf .refresh 5 k), ?_, rfl⟩
    rw [jobTrace, refreshTrace, driveTrace_eq_frameTraceInit, List.append_assoc]
    rfl

theorem startJob_of_configured (job : Job) (s : State) (hconf : s.configured = true) :
    startJob job s = ⟨{ s with busy := true }, some ⟨job, 0, 0, .stbLow⟩⟩ := by
  simp [startJob, hconf]

/-- Sending events while busy, then ending the operation, is sending them from the idle block. -/
theorem emitAll_busy (es : List Event) (s : State) (hidle : s.busy = false) :
    { emitAll es { s with busy := true } with busy := false } = emitAll es s := by
  simp [emitAll_eq, ← hidle]

/-- Settles O51: the sequencer sends the job's trace event by event, busy until the last one, and its end is the big
step's `emitAll` of the same trace. -/
theorem smallStepsMakeTheBigStep : Obligations.SmallStepsMakeTheBigStep := by
  intro job s hconf hidle
  obtain ⟨es, q, hsends, htrace, hdone⟩ := sends_jobTrace job s.buf
  have hlen : jobEvents job = es.length + 1 := by simp [← jobTrace_length job s.buf, htrace]
  have hrun : microRun es.length (startJob job s) = ⟨emitAll es { s with busy := true }, some q⟩ := by
    rw [startJob_of_configured job s hconf]
    exact microRun_of_sends (s := { s with busy := true }) hsends
  refine ⟨_, exec_jobInstr job s hconf, ?_, ?_⟩
  · rw [hlen, microRun_add, hrun, htrace, ← emitAll_busy _ s hidle, emitAll_append, microRun, microRun,
      microStep_of_done hdone]
    simp [emitAll_eq]
  · intro n hn
    rw [startJob_of_configured job s hconf]
    exact microRun_busy_of_sends (s := { s with busy := true }) hsends n (by omega)

end Sys2Proof.Machine

/-! Proofs about memory: what a text leaves in the buffer, a redraw that only reads it, and the port's bytes, which an
operation carries along unread. -/

namespace Sys2Proof.Machine

/-! ### A command stream on the port (rules R40, R59, R61) -/

/-- Every well-formed operation's word announces its text (rule R61), by `Laws.EncodeLength` for each. -/
theorem textLength_encodeWord (i : Instr) (h : i.WellFormed) : textLength (encodeWord i) = i.text.length := by
  have hlength : Laws.EncodeLength.Statement i := by
    cases i with
    | setup => exact Laws.EncodeLength.setup
    | encodeAt p x => exact Laws.EncodeLength.encodeAt p x
    | encode x => exact Laws.EncodeLength.encode x
    | refresh => exact Laws.EncodeLength.refresh
    | setIntensity l => exact Laws.EncodeLength.setIntensity l
    | setOn e => exact Laws.EncodeLength.setOn e
    | glyphFor c => exact Laws.EncodeLength.glyphFor c
    | dotFor c => exact Laws.EncodeLength.dotFor c
    | gremap v => exact Laws.EncodeLength.gremap v
    | dremap v => exact Laws.EncodeLength.dremap v
    | shiftOut b => exact Laws.EncodeLength.shiftOut b
    | drivePosition p b => exact Laws.EncodeLength.drivePosition p b
  exact (hlength h).2

/-- An operation's word and text stand for that operation, whatever the length of the text (rules R59, R60). -/
theorem decodeWord_encodeWord (i : Instr) : decodeWord (encodeWord i) i.text = .ok i := by
  cases i <;> simp [decodeWord, encodeWord, needA0, needB0, Instr.text]

/-- A well-formed operation is taken from the port whole, and what follows it stays. -/
theorem fetch_encode (i : Instr) (rest : List Byte) (h : i.WellFormed) : fetch (encode i ++ rest) = .instr i rest := by
  rw [encode, List.append_assoc, fetch_bytes _ _ _ (textLength_encodeWord i h).symm, decodeWord_encodeWord]

theorem commandStream_cons (i : Instr) (is : List Instr) (rest : List Byte) :
    commandStream (i :: is) ++ rest = encode i ++ (commandStream is ++ rest) := by
  simp [commandStream]

theorem emitAll_withPending (es : List Event) (s : State) (bytes : List Byte) :
    emitAll es { s with pending := bytes } = { emitAll es s with pending := bytes } := by
  simp [emitAll_eq]

/-- A pin writer whose events do not depend on the port does the same with other bytes presented. -/
theorem whenConfigured_withPending (act : State → State) (trace : State → List Event) (s : State) (bytes : List Byte)
    (hact : ∀ u, act u = emitAll (trace u) u) (htrace : trace { s with pending := bytes } = trace s) :
    whenConfigured act { s with pending := bytes } = { whenConfigured act s with pending := bytes } := by
  obtain hc | hc := Bool.eq_false_or_eq_true s.configured
  · rw [whenConfigured_of_configured act s hc, whenConfigured_of_configured act { s with pending := bytes } hc, hact,
      hact, htrace, emitAll_withPending]
    rfl
  · rw [whenConfigured_of_unconfigured act s hc, whenConfigured_of_unconfigured act { s with pending := bytes } hc]
    rfl

/-- No operation reads the bytes that wait on the port: with others presented it does the same. -/
theorem exec_withPending {i : Instr} {s t : State} (bytes : List Byte) (hexec : exec i s = .next t) :
    exec i { s with pending := bytes } = .next { t with pending := bytes } := by
  cases i with
  | shiftOut b =>
    cases hexec
    exact congrArg _ (whenConfigured_withPending _ (fun _ => bitTrace b) s bytes (shiftBit_eq_emitAll b) rfl)
  | drivePosition p b =>
    cases hexec
    exact congrArg _ (whenConfigured_withPending _ (fun _ => driveTrace p b) s bytes (driveFrame_eq_emitAll p b) rfl)
  | refresh =>
    cases hexec
    exact congrArg _ (whenConfigured_withPending _ (fun u => refreshTrace u.buf) s bytes redraw_eq_emitAll rfl)
  | _ => cases hexec; rfl

/-- After an operation the block can take the next command, and the bytes presented are still there. -/
theorem exec_keeps_ready {i : Instr} {s t : State} (hready : Ready s) (hexec : exec i s = .next t) :
    Ready t ∧ t.pending = s.pending := by
  obtain ⟨buf, configured, intensity, on, es, r, hnext⟩ := exec_next i s
  obtain rfl := Host.Outcome.next.inj (hnext.symm.trans hexec)
  exact ⟨hready, rfl⟩

theorem run_succ_of_step {s t : State} (k : Nat) (hstep : step s = .next t) :
    Host.Core.run Sys2Proof.core (k + 1) s = Host.Core.run Sys2Proof.core k t := by
  have hcore : Sys2Proof.core.step s = .next t := hstep
  simp only [Host.Core.run, hcore]

theorem execAll_cons_of_exec {i : Instr} {s t : State} (is : List Instr) (hexec : exec i s = .next t) :
    execAll (i :: is) s = execAll is t := by
  simp only [execAll, hexec]

/-- Settles O10, by induction on the operations: a step takes the first one off the port and runs it, and as it does
not read the bytes behind it, the rest runs from the same state. -/
theorem commandStreamRunsInOrder : Obligations.CommandStreamRunsInOrder := by
  intro is
  induction is with
  | nil =>
    intro s rest _ _ hpending
    obtain rfl : s.pending = rest := hpending
    rfl
  | cons i is ih =>
    intro s rest hready hwf hpending
    obtain ⟨hi, his⟩ := List.forall_mem_cons.mp hwf
    rw [commandStream_cons] at hpending
    have hstep := step_of_fetch_instr s i _ hready (hpending ▸ fetch_encode i _ hi)
    obtain ⟨t, -, -, hexec, -⟩ := exec_reports i { s with pending := commandStream is ++ rest }
    have htaken : Ready { s with pending := commandStream is ++ rest } := hready
    obtain ⟨hreadyNext, hpendingNext⟩ := exec_keeps_ready htaken hexec
    have hfirst : Host.Core.run Sys2Proof.core (is.length + 1) s = Host.Core.run Sys2Proof.core is.length t :=
      run_succ_of_step _ (hstep.trans hexec)
    have hrest : Host.Core.run Sys2Proof.core is.length t = execAll is { t with pending := rest } :=
      ih t rest hreadyNext his hpendingNext
    have hsame := exec_withPending rest hexec
    have hall : execAll (i :: is) { s with pending := rest } = execAll is { t with pending := rest } :=
      execAll_cons_of_exec is hsame
    exact hfirst.trans (hrest.trans hall.symm)

/-! ### The cells that a text reaches (rules R32, R80, R81) -/

theorem charStep_at_colon (g d : Rom) (c : Byte) (p : Pass) (hcell : p.cursor = 2) :
    charStep g d c p =
      ⟨p.cursor + 1, writeCell p.buf 2 (dremap (patternIn d c)),
        p.conditions ++ norepFor (patternIn d c) c p.cursor⟩ := by
  simp [charStep, colonStep, hcell]

/-- Only behind a cell can a '1' merge (rule R81). -/
theorem cursor_pos_of_mergeArmed {c : Byte} {cursor : Nat} {buf : Buf} (h : mergeArmed c cursor buf = true) :
    0 < cursor := by
  simp only [mergeArmed, Bool.and_eq_true, decide_eq_true_eq] at h
  obtain ⟨⟨-, hpos⟩, -⟩ := h
  exact hpos

/-- A character step writes below the cursor it leaves: a merging '1' behind the cursor, any other character at a cell
that the cursor then passes. -/
theorem charStep_cell_ahead (g d : Rom) (c : Byte) (p : Pass) (i : Nat) (h : (charStep g d c p).cursor ≤ i) :
    readCell (charStep g d c p).buf i = readCell p.buf i := by
  by_cases hcell : p.cursor = 2
  · rw [charStep_at_colon g d c p hcell] at h ⊢
    exact readCell_writeCell_ne _ _ _ _ (by dsimp only at h; omega)
  · cases hmerge : mergeArmed c p.cursor p.buf with
    | true =>
      have hpos := cursor_pos_of_mergeArmed hmerge
      rw [charStep_of_merges g d c p hcell hmerge] at h ⊢
      exact readCell_writeCell_ne _ _ _ _ (by dsimp only at h; omega)
    | false =>
      rw [charStep_of_not_merges g d c p hcell hmerge] at h ⊢
      exact readCell_writeCell_ne _ _ _ _ (by dsimp only at h; omega)

/-- A pass leaves every cell from the cursor it ends at on. -/
theorem encodePass_cell_ahead (g d : Rom) (text : List Byte) (p : Pass) (i : Nat)
    (h : (encodePass g d text p).cursor ≤ i) : readCell (encodePass g d text p).buf i = readCell p.buf i := by
  induction text generalizing p with
  | nil => rfl
  | cons c text ih =>
    by_cases hend : 5 ≤ p.cursor
    · rw [encodePass_stops g d c text p hend]
    · rw [encodePass_continues g d c text p (by omega)] at h ⊢
      have hmono := encodePass_cursor_mono g d text (charStep g d c p)
      exact (ih _ h).trans (charStep_cell_ahead g d c p i (hmono.trans h))

/-- A pass leaves every cell more than one behind the cursor it starts at. -/
theorem encodePass_cell_behind (g d : Rom) (text : List Byte) (p : Pass) (i : Nat) (h : i + 1 < p.cursor) :
    readCell (encodePass g d text p).buf i = readCell p.buf i := by
  induction text generalizing p with
  | nil => rfl
  | cons c text ih =>
    by_cases hend : 5 ≤ p.cursor
    · rw [encodePass_stops g d c text p hend]
    · rw [encodePass_continues g d c text p (by omega)]
      have hcursor : p.cursor ≤ (charStep g d c p).cursor := by
        rcases charStep_cursor g d c p with hc | hc <;> omega
      exact (ih _ (h.trans_le hcursor)).trans (charStep_cell g d c p i (by omega) (by omega))

/-- What an ENCODE_AT answers can only be what its pass ends with: the converse of `encodes_of_passOf`. -/
theorem passOf_of_encodes {s : State} {start : Byte} {text : List Byte} {n : Byte} {conditions : List Condition}
    {b : Buf} (h : Encodes s start text n conditions b) :
    n = BitVec.ofNat 8 ((passOf start text s).cursor - start.toNat) ∧
      conditions = (passOf start text s).conditions ∧ b = (passOf start text s).buf := by
  have hnext : encodeInto start text s = complete ⟨n, false, conditions⟩ { s with buf := b } :=
    Host.Outcome.next.inj h
  have hbuf := congrArg State.buf hnext
  have hresults := congrArg State.results hnext
  simp only [encodeInto, passResult, complete_buf, complete_results, List.append_cancel_left_eq, List.cons.injEq,
    Result.mk.injEq, and_true, true_and] at hbuf hresults
  obtain ⟨hcount, hconditions⟩ := hresults
  exact ⟨hcount.symm, hconditions.symm, hbuf.symm⟩

/-- The count of a text that starts in the buffer leads to the cursor its pass ends at (rules R13, R80). -/
theorem start_add_count {s : State} {start : Byte} {text : List Byte} {n : Byte} {conditions : List Condition}
    {b : Buf} (h : Encodes s start text n conditions b) (hstart : start.toNat ≤ 5) :
    start.toNat + n.toNat = (passOf start text s).cursor := by
  obtain ⟨rfl, -, -⟩ := passOf_of_encodes h
  have hle : (passOf start text s).cursor ≤ 5 := encodePass_cursor_le _ _ _ _ hstart
  have hge : start.toNat ≤ (passOf start text s).cursor := encodePass_cursor_mono _ _ text ⟨start.toNat, s.buf, []⟩
  rw [BitVec.toNat_ofNat]
  omega

/-- Settles O21: behind the start by `encodePass_cell_behind`, from the end of the text on by `encodePass_cell_ahead`. -/
theorem encodeLeavesOtherCells : Obligations.EncodeLeavesOtherCells := by
  intro s start text n conditions b h i hi hcell
  obtain ⟨-, -, rfl⟩ := passOf_of_encodes h
  rcases hcell with hbehind | hahead
  · exact encodePass_cell_behind _ _ _ _ i hbehind
  · rw [start_add_count h (by omega)] at hahead
    exact encodePass_cell_ahead _ _ _ _ i hahead

/-! ### A redraw only reads (rules R43, R100) -/

theorem refreshTrace_ne_nil (buf : Buf) : refreshTrace buf ≠ [] := by
  simp [refreshTrace, driveTrace]

/-- A configured block's REFRESH can be followed by another: the buffer and `configured` stay. -/
theorem exec_refresh_of_configured (s : State) (hconf : s.configured = true) : ∃ t,
    exec .refresh s = .next t ∧ t.trace = s.trace ++ refreshTrace s.buf ∧ t.buf = s.buf ∧ t.configured = true := by
  refine ⟨_, exec_jobInstr .refresh s hconf, ?_⟩
  simp [emitAll_eq, jobTrace, hconf]

/-- Settles O38: the trace is a function of the buffer, which the first REFRESH leaves for the second. -/
theorem refreshTwiceRepeats : Obligations.RefreshTwiceRepeats := by
  intro s hconf
  obtain ⟨t, hfirst, htrace, hbuf, hconf'⟩ := exec_refresh_of_configured s hconf
  obtain ⟨u, hsecond, htrace', hbuf', -⟩ := exec_refresh_of_configured t hconf'
  rw [hbuf] at htrace' hbuf'
  exact ⟨t, u, refreshTrace s.buf, hfirst, hsecond, htrace, htrace', hbuf', refreshTrace_ne_nil s.buf⟩

end Sys2Proof.Machine

/-! Proofs about the encoding: command words against operations, the operation table, what a step takes from the port,
a tick, frames, and the result word. -/

namespace Sys2Proof.Machine

/-- Settles O2: `fetch_encode`. -/
theorem decodeInvertsEncode : Obligations.DecodeInvertsEncode := fetch_encode

/-! ### The words of rule R59 -/

/-- The table of rule R59 as a relation: the words that stand for each operation when `text` follows them. -/
inductive Denotes (text : List Byte) : CommandWord → Instr → Prop where
  | setup : Denotes text (packWord 0x0#4 0x00#8 0x00#8) .setup
  | encodeAt (p len : Byte) : Denotes text (packWord 0x1#4 p len) (.encodeAt p text)
  | encode (len : Byte) : Denotes text (packWord 0x2#4 0x00#8 len) (.encode text)
  | refresh : Denotes text (packWord 0x3#4 0x00#8 0x00#8) .refresh
  | setIntensity (level : Byte) : Denotes text (packWord 0x4#4 0x00#8 level) (.setIntensity level)
  | setOn (enable : Bool) : Denotes text (packWord 0x5#4 0x00#8 (bitByte enable)) (.setOn enable)
  | glyphFor (c : Byte) : Denotes text (packWord 0x8#4 0x00#8 c) (.glyphFor c)
  | dotFor (c : Byte) : Denotes text (packWord 0x9#4 0x00#8 c) (.dotFor c)
  | gremap (v : Byte) : Denotes text (packWord 0xA#4 0x00#8 v) (.gremap v)
  | dremap (v : Byte) : Denotes text (packWord 0xB#4 0x00#8 v) (.dremap v)
  | shiftOut (b : Bool) : Denotes text (packWord 0xC#4 0x00#8 (bitByte b)) (.shiftOut b)
  | drivePosition (p b : Byte) : Denotes text (packWord 0xD#4 p b) (.drivePosition p b)

theorem needA0_eq_ok_iff (w : CommandWord) (x : Except IllegalReason Instr) (i : Instr) :
    needA0 w x = .ok i ↔ aField w = 0x00#8 ∧ x = .ok i := by
  by_cases h : aField w = 0x00#8 <;> simp [needA0, h]

theorem needB0_eq_ok_iff (w : CommandWord) (i j : Instr) :
    needB0 w i = .ok j ↔ bField w = 0x00#8 ∧ i = j := by
  by_cases h : bField w = 0x00#8 <;> simp [needB0, h]

/-- A byte whose bits 7..1 are 0 is its bit 0. -/
theorem eq_bitByte_of_high_bits_zero (v : Byte) (h : v &&& 0xFE#8 = 0x00#8) : v = bitByte (v.getLsbD 0) := by
  revert v
  decide

theorem needBit_eq_ok_iff (w : CommandWord) (f : Bool → Instr) (i : Instr) :
    needBit w f = .ok i ↔ ∃ e, bField w = bitByte e ∧ f e = i := by
  constructor
  · intro h
    unfold needBit at h
    split at h
    · next hhigh => exact ⟨_, eq_bitByte_of_high_bits_zero _ hhigh, Except.ok.inj h⟩
    · cases h
  · rintro ⟨e, hb, rfl⟩
    cases e <;> simp [needBit, hb, bitByte]

/-- The decoder reads the table of rule R59: the split is over its match on `op`, and each branch is a line. -/
theorem denotes_of_decodeWord {w : CommandWord} {text : List Byte} {i : Instr} (h : decodeWord w text = .ok i) :
    Denotes text w i := by
  by_cases hz : zField w = 0x0#4
  · obtain ⟨op, a, b, rfl⟩ : ∃ op a b, w = packWord op a b := ⟨_, _, _, (packWord_fields w hz).symm⟩
    simp only [decodeWord, zField_packWord, opField_packWord, aField_packWord, bField_packWord, ne_eq,
      not_true_eq_false, if_false] at h
    split at h
    all_goals simp only [needA0_eq_ok_iff, needB0_eq_ok_iff, needBit_eq_ok_iff, aField_packWord, bField_packWord,
      Except.ok.injEq, reduceCtorEq] at h
    · obtain ⟨rfl, rfl, rfl⟩ := h; exact .setup
    · obtain rfl := h; exact .encodeAt a b
    · obtain ⟨rfl, rfl⟩ := h; exact .encode b
    · obtain ⟨rfl, rfl, rfl⟩ := h; exact .refresh
    · obtain ⟨rfl, rfl⟩ := h; exact .setIntensity b
    · obtain ⟨rfl, e, rfl, rfl⟩ := h; exact .setOn e
    · obtain ⟨rfl, rfl⟩ := h; exact .glyphFor b
    · obtain ⟨rfl, rfl⟩ := h; exact .dotFor b
    · obtain ⟨rfl, rfl⟩ := h; exact .gremap b
    · obtain ⟨rfl, rfl⟩ := h; exact .dremap b
    · obtain ⟨rfl, e, rfl, rfl⟩ := h; exact .shiftOut e
    · obtain rfl := h; exact .drivePosition a b
  · simp [decodeWord, hz] at h

/-- When the text has the length the word announces, the word and the text are the operation's own (rule R61). -/
theorem Denotes.eq_encodeWord {w : CommandWord} {text : List Byte} {i : Instr} (h : Denotes text w i)
    (hlen : text.length = textLength w) : encodeWord i = w ∧ i.text = text := by
  cases h with
  | encodeAt p len | encode len =>
    have hlen : text.length = len.toNat := by simpa [textLength] using hlen
    simp [encodeWord, Instr.text, hlen]
  | _ =>
    obtain rfl : text = [] := by simpa [textLength] using hlen
    exact ⟨rfl, rfl⟩

theorem textLength_le (w : CommandWord) : textLength w ≤ 255 := by
  have hlen := (bField w).isLt
  unfold textLength
  split <;> omega

/-- A command taken from the port was there: its word, the text the word announces, and the rest. -/
theorem eq_bytes_of_fetch_instr {bytes : List Byte} {i : Instr} {rest : List Byte} (h : fetch bytes = .instr i rest) :
    ∃ w text, bytes = commandBytes w ++ (text ++ rest) ∧ text.length = textLength w ∧ decodeWord w text = .ok i := by
  unfold fetch at h
  split at h
  · next b2 b1 b0 after =>
    dsimp only at h
    split at h
    · cases h
    · next hlong =>
      split at h
      · next j hdecode =>
        cases h
        refine ⟨_, _, ?_, ?_, hdecode⟩
        · rw [commandBytes_word, List.take_append_drop]
          rfl
        · exact List.length_take_of_le (Nat.le_of_not_lt hlong)
      · cases h
  · cases h

/-- Settles O3: the bytes taken were a word and its text (`eq_bytes_of_fetch_instr`), and these are the operation's own
(`Denotes.eq_encodeWord`). -/
theorem encodeInvertsDecode : Obligations.EncodeInvertsDecode := by
  intro bytes i rest h
  obtain ⟨w, text, rfl, hlen, hdecode⟩ := eq_bytes_of_fetch_instr h
  obtain ⟨rfl, rfl⟩ := (denotes_of_decodeWord hdecode).eq_encodeWord hlen
  exact ⟨hlen.trans_le (textLength_le _), by rw [encode, List.append_assoc]⟩

/-! ### The operation table (rules R59, R60, R64) -/

/-- Words whose bits from `start` on agree for `len` bits agree at each of them. -/
theorem getLsbD_eq_of_extractLsb'_eq {v w : CommandWord} {start len i : Nat}
    (h : v.extractLsb' start len = w.extractLsb' start len) (hle : start ≤ i) (hlt : i < start + len) :
    v.getLsbD i = w.getLsbD i := by
  have hbit := congrArg (fun x => x.getLsbD (i - start)) h
  have hin : i - start < len := by omega
  simpa [BitVec.getLsbD_extractLsb', hin, Nat.add_sub_cancel' hle] using hbit

/-- Two words are equal when their four fields are. -/
theorem word_eq_iff (v w : CommandWord) :
    v = w ↔ opField v = opField w ∧ zField v = zField w ∧ aField v = aField w ∧ bField v = bField w := by
  refine ⟨by rintro rfl; simp, ?_⟩
  rintro ⟨hop, hz, ha, hb⟩
  apply BitVec.eq_of_getLsbD_eq
  intro i hi
  by_cases hi8 : i < 8
  · exact getLsbD_eq_of_extractLsb'_eq hb (by omega) (by omega)
  by_cases hi16 : i < 16
  · exact getLsbD_eq_of_extractLsb'_eq ha (by omega) (by omega)
  by_cases hi20 : i < 20
  · exact getLsbD_eq_of_extractLsb'_eq hz (by omega) (by omega)
  · exact getLsbD_eq_of_extractLsb'_eq hop (by omega) (by omega)

@[simp] theorem opField_and (v w : CommandWord) : opField (v &&& w) = opField v &&& opField w :=
  BitVec.extractLsb'_and

@[simp] theorem zField_and (v w : CommandWord) : zField (v &&& w) = zField v &&& zField w :=
  BitVec.extractLsb'_and

@[simp] theorem aField_and (v w : CommandWord) : aField (v &&& w) = aField v &&& aField w :=
  BitVec.extractLsb'_and

@[simp] theorem bField_and (v w : CommandWord) : bField (v &&& w) = bField v &&& bField w :=
  BitVec.extractLsb'_and

/-- The fields of a word written as three bytes. -/
theorem fields_commandWord (b2 b1 b0 : Byte) :
    opField (commandWord b2 b1 b0) = b2.extractLsb' 4 4 ∧ zField (commandWord b2 b1 b0) = b2.extractLsb' 0 4 ∧
    aField (commandWord b2 b1 b0) = b1 ∧ bField (commandWord b2 b1 b0) = b0 := by
  have hbytes := commandBytes_word b2 b1 b0
  simp only [commandBytes, List.cons.injEq, and_true] at hbytes
  obtain ⟨-, ha, hb⟩ := hbytes
  have htop : ∀ start, 16 ≤ start →
      (commandWord b2 b1 b0).extractLsb' start 4 = b2.extractLsb' (start - 8 - 8) 4 := fun start hle =>
    (BitVec.extractLsb'_append_eq_of_le (by omega)).trans (BitVec.extractLsb'_append_eq_of_le (by omega))
  exact ⟨htop 20 (by decide), htop 16 (by decide), ha, hb⟩

/-- A row of the table by fields: it fixes `op` whole and `z` at 0, and asks the masked bits of `a` and `b` to be 0. -/
def fieldRow (mnemonic : String) (op : BitVec 4) (aMask bMask : Byte) : OpRow :=
  ⟨mnemonic, commandWord 0xFF#8 aMask bMask, packWord op 0x00#8 0x00#8⟩

@[simp] theorem fieldRow_mnemonic (m : String) (op : BitVec 4) (aMask bMask : Byte) :
    (fieldRow m op aMask bMask).mnemonic = m := rfl

/-- The "must be" fields of rule R59, read off the table's masks. -/
theorem opcodeTable_eq_fieldRows : opcodeTable =
    [fieldRow "SETUP" 0x0#4 0xFF#8 0xFF#8, fieldRow "ENCODE_AT" 0x1#4 0x00#8 0x00#8,
      fieldRow "ENCODE" 0x2#4 0xFF#8 0x00#8, fieldRow "REFRESH" 0x3#4 0xFF#8 0xFF#8,
      fieldRow "SET_INTENSITY" 0x4#4 0xFF#8 0x00#8, fieldRow "SET_ON" 0x5#4 0xFF#8 0xFE#8,
      fieldRow "GLYPH_FOR" 0x8#4 0xFF#8 0x00#8, fieldRow "DOT_FOR" 0x9#4 0xFF#8 0x00#8,
      fieldRow "GREMAP" 0xA#4 0xFF#8 0x00#8, fieldRow "DREMAP" 0xB#4 0xFF#8 0x00#8,
      fieldRow "SHIFT_OUT" 0xC#4 0xFF#8 0xFE#8, fieldRow "DRIVE_POSITION" 0xD#4 0x00#8 0x00#8] := by
  decide

theorem and_0xF (v : BitVec 4) : v &&& 0xF#4 = v := BitVec.and_allOnes

theorem byte_and_0xFF (v : Byte) : v &&& 0xFF#8 = v := BitVec.and_allOnes

theorem fieldRow_holds_iff (m : String) (op : BitVec 4) (aMask bMask : Byte) (w : CommandWord) :
    (fieldRow m op aMask bMask).holds w = true ↔
      opField w = op ∧ zField w = 0x0#4 ∧ aField w &&& aMask = 0x00#8 ∧ bField w &&& bMask = 0x00#8 := by
  obtain ⟨hop, hz, ha, hb⟩ := fields_commandWord 0xFF#8 aMask bMask
  simp [OpRow.holds, fieldRow, word_eq_iff, hop, hz, ha, hb, and_0xF]

theorem bitByte_and_0xFE (e : Bool) : bitByte e &&& 0xFE#8 = 0x00#8 := by
  cases e <;> rfl

/-- Each line of rule R59 is a row of the table. -/
theorem Denotes.row {w : CommandWord} {text : List Byte} {i : Instr} (h : Denotes text w i) :
    ∃ row ∈ opcodeTable, row.holds w = true ∧ row.mnemonic = mnemonicOf i := by
  rw [opcodeTable_eq_fieldRows]
  cases h <;> simp [fieldRow_holds_iff, mnemonicOf, bitByte_and_0xFE]

/-- Each row of the table passes the decoder's tests for its `op`. -/
theorem decodeWord_of_row {w : CommandWord} {row : OpRow} (text : List Byte) (hrow : row ∈ opcodeTable)
    (h : row.holds w = true) : ∃ i, decodeWord w text = .ok i ∧ row.mnemonic = mnemonicOf i := by
  rw [opcodeTable_eq_fieldRows] at hrow
  simp only [List.mem_cons, List.not_mem_nil, or_false] at hrow
  rcases hrow with rfl | rfl | rfl | rfl | rfl | rfl | rfl | rfl | rfl | rfl | rfl | rfl
  all_goals
    simp only [fieldRow_holds_iff, byte_and_0xFF] at h
    obtain ⟨hop, hz, ha, hb⟩ := h
    simp [decodeWord, hop, hz, ha, hb, needA0, needB0, needBit, mnemonicOf]

/-- Every row fixes the whole of `op`. -/
theorem opField_of_holds {row : OpRow} {w : CommandWord} (hrow : row ∈ opcodeTable) (h : row.holds w = true) :
    opField w = opField row.pattern := by
  have hmask : ∀ r ∈ opcodeTable, opField r.mask = 0xF#4 := by decide
  have hword : w &&& row.mask = row.pattern := by simpa [OpRow.holds] using h
  rw [← hword, opField_and, hmask row hrow, and_0xF]

/-- Settles O5: decoded words are `Denotes.row`, the rows' words `decodeWord_of_row`, and no two rows share an `op`. -/
theorem legalWordsAreTheTableRows : Obligations.LegalWordsAreTheTableRows := by
  have hops : opcodeTable.Pairwise (fun r r' => opField r.pattern ≠ opField r'.pattern) := by decide
  refine ⟨fun w text => ⟨fun i h => (denotes_of_decodeWord h).row,
    fun row hrow h => decodeWord_of_row text hrow h⟩, hops.imp_of_mem ?_⟩
  rintro r r' hr hr' hne w ⟨h, h'⟩
  exact hne ((opField_of_holds hr h).symm.trans (opField_of_holds hr' h'))

/-! ### Words that rule R64 does not call illegal -/

/-- A word that rule R64 does not call illegal is in the operation table: the row is that of its `op`. -/
theorem exists_row_of_not_illegalWord {w : CommandWord} (h : ¬ IllegalWord w) :
    ∃ row ∈ opcodeTable, row.holds w = true := by
  have hops : ∀ op : BitVec 4, op ≠ 0x6#4 → op ≠ 0x7#4 → op ≠ 0xE#4 → op ≠ 0xF#4 →
      op = 0x0#4 ∨ op = 0x1#4 ∨ op = 0x2#4 ∨ op = 0x3#4 ∨ op = 0x4#4 ∨ op = 0x5#4 ∨
      op = 0x8#4 ∨ op = 0x9#4 ∨ op = 0xA#4 ∨ op = 0xB#4 ∨ op = 0xC#4 ∨ op = 0xD#4 := by decide
  have hlow : ∀ v : Byte, ¬ 1 < v.toNat → v &&& 0xFE#8 = 0x00#8 := by decide
  simp only [IllegalWord, not_or, not_and, not_not] at h
  obtain ⟨⟨h6, h7, hE, hF⟩, hz, ha, hb, hbit⟩ := h
  have hbit := fun hop => hlow _ (hbit hop)
  rw [opcodeTable_eq_fieldRows]
  rcases hops _ h6 h7 hE hF with hop | hop | hop | hop | hop | hop | hop | hop | hop | hop | hop | hop
  all_goals
    rw [hop] at ha hb hbit
    simp [fieldRow_holds_iff, hop, hz, ha, hb, hbit]

/-- Settles O7: the word is in the table by `exists_row_of_not_illegalWord`, and the decoder takes the table's words. -/
theorem legalWordIsAccepted : Obligations.LegalWordIsAccepted := by
  intro w text rest hlegal hlen
  obtain ⟨row, hrow, hholds⟩ := exists_row_of_not_illegalWord hlegal
  obtain ⟨i, hdecode, -⟩ := decodeWord_of_row text hrow hholds
  exact ⟨i, by rw [fetch_bytes w text rest hlen, hdecode]⟩

/-- Settles O4, word by word. -/
theorem specWordsDecode : Obligations.SpecWordsDecode := by
  unfold Obligations.SpecWordsDecode
  decide

/-! ### The port between steps (log 2, log 3) -/

/-- Settles O9: a busy block does nothing either. -/
theorem incompleteCommandWaits : Obligations.IncompleteCommandWaits := by
  intro s hnoReset hfetch
  simp [step, hnoReset, hfetch]

/-- A table word lies on the port as its three bytes and as many text bytes as it announces. -/
theorem tableBytes_eq (nbits w : Nat) : ∃ word text,
    tableBytes nbits w = commandBytes word ++ text ∧ text.length = textLength word :=
  ⟨_, _, rfl, by rw [List.length_map, List.length_range]⟩

/-- What a table word decodes to is taken from the port in front of any other bytes. -/
theorem fetch_tableBytes {nbits w : Nat} {i : Instr} (h : decodeTableWord nbits w = some i) (rest : List Byte) :
    fetch (tableBytes nbits w ++ rest) = .instr i rest := by
  obtain ⟨word, text, hbytes, hlen⟩ := tableBytes_eq nbits w
  have hfetch := fetch_bytes word text [] hlen
  rw [List.append_nil] at hfetch
  rw [decodeTableWord, hbytes, hfetch] at h
  rw [hbytes, List.append_assoc, fetch_bytes word text rest hlen]
  cases hdecode : decodeWord word text with
  | ok j => simpa [hdecode] using h
  | error e => simp [hdecode] at h

/-- Settles O11: the placed bytes are taken whole by `fetch_tableBytes`, and the step runs what they carry. -/
theorem placedWordRunsNext : Obligations.PlacedWordRunsNext :=
  fun s nbits w i h =>
    step_of_fetch_instr (s.withFetchWord nbits w) i s.pending ⟨rfl, rfl⟩ (fetch_tableBytes h s.pending)

/-! ### A tick (rules R67, R146) -/

/-- A callback's command sends nothing and leaves the block configured as it was (rule R10, D20). -/
theorem exec_tickCommand {i : Instr} {s t : State} (hi : tickCommand i = true) (hexec : exec i s = .next t) :
    t.trace = s.trace ∧ t.configured = s.configured := by
  obtain ⟨-, hsends, hsetup, -⟩ := onlyListedWriters i s t hexec
  refine ⟨?_, ?_⟩ <;> by_contra hne
  · obtain ⟨b, rfl⟩ | ⟨p, b, rfl⟩ | rfl := hsends (.inr hne) <;> cases hi
  · obtain rfl := hsetup hne
    cases hi

/-- An operation takes no byte from the port and adds one result record. -/
theorem exec_pending_results {i : Instr} {s t : State} (hexec : exec i s = .next t) :
    t.pending = s.pending ∧ t.results.length = s.results.length + 1 := by
  obtain ⟨buf, configured, intensity, on, es, r, hnext⟩ := exec_next i s
  obtain rfl := Host.Outcome.next.inj (hnext.symm.trans hexec)
  exact ⟨rfl, by simp⟩

/-- A tick, run to its end: induction on the callback's commands, each of which sends nothing, down to the REFRESH. -/
theorem execAll_tick (cmds : List Instr) (s : State) (hconf : s.configured = true)
    (hcmds : ∀ i ∈ cmds, tickCommand i = true) : ∃ t,
    execAll (tick cmds) s = .next t ∧ t.pending = s.pending ∧ t.trace = s.trace ++ refreshTrace t.buf ∧
    t.results.length = s.results.length + cmds.length + 1 := by
  induction cmds generalizing s with
  | nil =>
    obtain ⟨t, hexec, htrace, hbuf, -⟩ := exec_refresh_of_configured s hconf
    obtain ⟨hpending, hresults⟩ := exec_pending_results hexec
    exact ⟨t, execAll_cons_of_exec [] hexec, hpending, hbuf ▸ htrace, hresults⟩
  | cons i cmds ih =>
    obtain ⟨hi, hcmds⟩ := List.forall_mem_cons.mp hcmds
    obtain ⟨u, -, -, hexec, -⟩ := exec_reports i s
    obtain ⟨hquiet, hkeeps⟩ := exec_tickCommand hi hexec
    obtain ⟨hpendingU, hresultsU⟩ := exec_pending_results hexec
    obtain ⟨t, hrun, hpending, htrace, hresults⟩ := ih u (hkeeps.trans hconf) hcmds
    refine ⟨t, (execAll_cons_of_exec (tick cmds) hexec).trans hrun, hpending.trans hpendingU, hquiet ▸ htrace, ?_⟩
    rw [hresults, hresultsU, List.length_cons]
    omega

/-- Settles O52: the stream runs in order (`commandStreamRunsInOrder`), and the run is `execAll_tick`. -/
theorem tickSendsOneRedraw : Obligations.TickSendsOneRedraw := by
  intro cmds s rest hready hconf hcmds hpending
  have hwf : ∀ i ∈ tick cmds, i.WellFormed := by
    intro i hi
    rcases List.mem_append.mp hi with hi | hi
    · exact (hcmds i hi).2
    · obtain rfl := List.mem_singleton.mp hi
      exact Nat.zero_le _
  obtain ⟨t, hrun, hrest⟩ := execAll_tick cmds { s with pending := rest } hconf (fun i hi => (hcmds i hi).1)
  exact ⟨t, (commandStreamRunsInOrder (tick cmds) s rest hready hwf hpending).trans hrun, hrest⟩

/-! ### Frames (rules R52 to R57, R92) -/

theorem selectBits_eq_map (position : Byte) :
    selectBits position = (List.range 5).map (fun i => decide (position.toNat = i)) := by
  simp [selectBits, List.range_succ, BitVec.toNat_eq, Bool.beq_eq_decide_eq]

theorem frame_of_colon (position bits : Byte) (h : position.toNat = 2) :
    frame position bits = selectBits position ++ colonData bits := by
  simp [frame, h]

theorem frame_of_digit (position bits : Byte) (h : position.toNat ≠ 2) :
    frame position bits = selectBits position ++ digitData bits := by
  simp [frame, h]

/-- Settles O30: the select bits by `selectBits_eq_map`, the data slots one by one in the two kinds of frame. -/
theorem frameSlots : Obligations.FrameSlots := by
  intro position bits
  refine ⟨frame_length position bits, ?_, ?_, ?_, by decide⟩
  · intro i hi
    rw [frame, List.getElem?_append_left (by simpa [selectBits] using hi), selectBits_eq_map]
    simp [hi]
  · intro h
    rw [frame_of_digit position bits h]
    refine ⟨rfl, rfl, fun k hk => ?_⟩
    interval_cases k <;> rfl
  · intro h
    rw [frame_of_colon position bits h]
    refine ⟨rfl, rfl, fun k hk => ?_⟩
    interval_cases k <;> rfl

/-- Settles O31: in the two kinds of frame, the data bits are the remapped byte's, and the remaps are read bit by bit. -/
theorem frameCarriesTableBits : Obligations.FrameCarriesTableBits := by
  refine ⟨fun position v h => ?_, fun v => ?_⟩
  · rw [frame_of_digit position _ h]
    simp only [selectBits, digitData, gremap, BitVec.getLsbD_append, BitVec.getLsbD_extractLsb']
    simp
  · rw [frame_of_colon 2#8 _ rfl]
    simp only [selectBits, colonData, dremap, BitVec.getLsbD_append, BitVec.getLsbD_extractLsb']
    simp

/-! ### The result port (rules R62, R111) -/

theorem occurred_iff (code : Nat) (conditions : List Condition) :
    occurred code conditions = true ↔ ∃ c ∈ conditions, conditionCode c = code := by
  simp [occurred]

/-- The one-bit fields of a result word (rule R62). -/
theorem resultWord_bits (r : Result) :
    (resultWord r).getLsbD 7 = r.found ∧ (resultWord r).getLsbD 3 = occurred 4 r.conditions ∧
    (resultWord r).getLsbD 2 = occurred 3 r.conditions ∧ (resultWord r).getLsbD 1 = occurred 2 r.conditions ∧
    (resultWord r).getLsbD 0 = occurred 1 r.conditions := by
  simp only [resultWord, BitVec.getLsbD_append]
  simp [bit1]

theorem resultWord_value (r : Result) : (resultWord r).extractLsb' 8 8 = r.value := by
  ext i hi
  simp only [BitVec.getElem_extractLsb', resultWord, BitVec.getLsbD_append]
  interval_cases i <;> simp

theorem resultWord_zeros (r : Result) : (resultWord r).extractLsb' 4 3 = 0b000#3 := by
  ext i hi
  simp only [BitVec.getElem_extractLsb', resultWord, BitVec.getLsbD_append]
  interval_cases i <;> simp

theorem conditionCode_eq_iff (c : Condition) :
    (conditionCode c = 4 ↔ c = .notconf) ∧ (conditionCode c = 3 ↔ c = .illegal) ∧
    (conditionCode c = 2 ↔ c = .toolong) ∧ (conditionCode c = 1 ↔ ∃ x cell, c = .norep x cell) := by
  cases c <;> simp [conditionCode]

/-- Settles O53: the fields by the three lemmas above, and a condition's code says which condition it is. -/
theorem resultWordFields : Obligations.ResultWordFields := by
  intro r
  obtain ⟨hfound, hnotconf, hillegal, htoolong, hnorep⟩ := resultWord_bits r
  refine ⟨resultWord_value r, hfound, resultWord_zeros r, ?_, ?_, ?_, ?_⟩
  · rw [hnotconf]
    simp [occurred_iff, conditionCode_eq_iff]
  · rw [hillegal]
    simp [occurred_iff, conditionCode_eq_iff]
  · rw [htoolong]
    simp [occurred_iff, conditionCode_eq_iff]
  · rw [hnorep]
    simp [occurred_iff, conditionCode_eq_iff]

end Sys2Proof.Machine

/-! Proofs about the lookup and remap operations: what a table lookup answers, and where each remap puts the bits. -/

namespace Sys2Proof.Machine

/-! ### A lookup's answer (rules R70, R71) -/

theorem exec_glyphFor (c : Byte) (s : State) :
    exec (.glyphFor c) s = .next { s with results := s.results ++ [lookupAnswer (lookup s.glyphRom c)] } := rfl

theorem exec_dotFor (c : Byte) (s : State) :
    exec (.dotFor c) s = .next { s with results := s.results ++ [lookupAnswer (lookup s.dotRom c)] } := rfl

theorem lookupAnswer_lookup (rom : Rom) (c : Byte) :
    lookupAnswer (lookup rom c) = ⟨patternIn rom c, patternIn rom c != 0x00#8, []⟩ := by
  rw [lookupAnswer, lookup_pattern, lookup_found, isFound]

theorem lookupAnswer_of_inRange (rom : Rom) (c : Byte) (h : 0x20 ≤ c.toNat ∧ c.toNat ≤ 0x7E) :
    lookupAnswer (lookup rom c) =
      ⟨rom[c.toNat - 0x20]'(by omega), rom[c.toNat - 0x20]'(by omega) != 0x00#8, []⟩ := by
  rw [lookupAnswer_lookup, patternIn, dif_pos h]

/-- Not found is the same answer whether the table has no entry or the entry is 0x00. -/
theorem lookupAnswer_of_sentinel {rom : Rom} {c : Byte} (h : patternIn rom c = 0x00#8) :
    lookupAnswer (lookup rom c) = ⟨0x00#8, false, []⟩ := by
  rw [lookupAnswer_lookup, h]
  rfl

theorem patternIn_of_outOfRange (rom : Rom) (c : Byte) (h : c.toNat < 0x20 ∨ 0x7E < c.toNat) :
    patternIn rom c = 0x00#8 :=
  dif_neg (by omega)

/-- Rule R16 (a): entry 0x00 of a legal table, the pattern of space, is the sentinel. -/
theorem patternIn_space {rom : Rom} (hlegal : LegalGlyphRom rom) : patternIn rom 0x20#8 = 0x00#8 :=
  hlegal.left

/-- Settles O12: in range the table's entry, out of range and for space the sentinel; the word is the encoder's. -/
theorem glyphForAnswers : Obligations.GlyphForAnswers := by
  intro c s
  refine ⟨fun h => ?_, fun h => ?_, fun hlegal => ?_, by decide, decodeWord_encodeWord (.glyphFor c)⟩
  · rw [exec_glyphFor, lookupAnswer_of_inRange _ _ h]
  · rw [exec_glyphFor, lookupAnswer_of_sentinel (patternIn_of_outOfRange _ _ h)]
  · rw [exec_glyphFor, lookupAnswer_of_sentinel (patternIn_space hlegal)]

/-- Settles O13: the same two cases on the dot table. -/
theorem dotForAnswers : Obligations.DotForAnswers := by
  intro c s
  refine ⟨fun h => ?_, fun h => ?_, by decide, decodeWord_encodeWord (.dotFor c)⟩
  · rw [exec_dotFor, lookupAnswer_of_inRange _ _ h]
  · rw [exec_dotFor, lookupAnswer_of_sentinel (patternIn_of_outOfRange _ _ h)]

/-! ### GREMAP bit by bit (rule R72) -/

theorem exec_gremap (v : Byte) (s : State) :
    exec (.gremap v) s = .next { s with results := s.results ++ [⟨gremap v, false, []⟩] } := rfl

/-- Where each bit of GREMAP's result comes from. -/
theorem gremap_bits (v : Byte) :
    (gremap v).getLsbD 7 = false ∧ (gremap v).getLsbD 6 = v.getLsbD 3 ∧ (gremap v).getLsbD 5 = v.getLsbD 2 ∧
    (gremap v).getLsbD 4 = v.getLsbD 1 ∧ (gremap v).getLsbD 3 = v.getLsbD 6 ∧ (gremap v).getLsbD 2 = v.getLsbD 5 ∧
    (gremap v).getLsbD 1 = v.getLsbD 4 ∧ (gremap v).getLsbD 0 = v.getLsbD 0 := by
  simp only [gremap, BitVec.getLsbD_append, BitVec.getLsbD_extractLsb']
  simp

/-- The shift-and-mask form: bits 3..1 go up by three, bits 6..4 go down by three, bit 0 stays. -/
theorem gremap_eq_shifts (v : Byte) :
    gremap v = ((v &&& 0x0E#8) <<< 3) ||| ((v &&& 0x70#8) >>> 3) ||| (v &&& 0x01#8) := by
  apply BitVec.eq_of_getLsbD_eq
  intro i hi
  interval_cases i <;> simp [gremap_bits, -BitVec.getLsbD_eq_getElem]

/-- GREMAP exchanges two groups of three bits, so twice in a row it only clears bit 7. -/
theorem gremap_gremap (v : Byte) : gremap (gremap v) = v &&& 0x7F#8 := by
  apply BitVec.eq_of_getLsbD_eq
  intro i hi
  interval_cases i <;> simp [gremap_bits, -BitVec.getLsbD_eq_getElem]

/-- GREMAP gives the decimal point alone for the decimal point alone, whatever bit 7 is. -/
theorem gremap_eq_one_iff (v : Byte) : gremap v = 0x01#8 ↔ v &&& 0x7F#8 = 0x01#8 := by
  constructor
  · intro h
    rw [← gremap_gremap, h]
    decide
  · intro h
    apply gremap_of_low_bits_eq_one
    calc v.extractLsb' 0 7
      _ = (v &&& 0x7F#8).extractLsb' 0 7 := by
          rw [BitVec.extractLsb'_and]
          exact (BitVec.and_allOnes).symm
      _ = 0b0000001#7 := by
          rw [h]
          decide

/-- Settles O14: the bits by `gremap_bits`, the decimal point by `gremap_eq_one_iff`. -/
theorem gremapPermutesBits : Obligations.GremapPermutesBits := by
  intro v s
  refine ⟨gremap v, exec_gremap v s, gremap_bits v, gremap_eq_one_iff v, ?_, decodeWord_encodeWord (.gremap v)⟩
  rintro rfl
  decide

/-- Settles O15: `gremap_eq_shifts`, and `gremap_gremap` for the second answer. -/
theorem gremapTwiceGivesBackSevenBits : Obligations.GremapTwiceGivesBackSevenBits :=
  fun v s => ⟨gremap v, exec_gremap v s, gremap_eq_shifts v, gremap_gremap v ▸ exec_gremap (gremap v) s⟩

/-! ### DREMAP bit by bit (rule R73) -/

theorem exec_dremap (v : Byte) (s : State) :
    exec (.dremap v) s = .next { s with results := s.results ++ [⟨dremap v, false, []⟩] } := rfl

theorem dremap_low_bits (v : Byte) :
    (dremap v).getLsbD 0 = v.getLsbD 1 ∧ (dremap v).getLsbD 1 = v.getLsbD 0 := by
  simp only [dremap, BitVec.getLsbD_append, BitVec.getLsbD_extractLsb']
  simp

theorem dremap_high_bits (v : Byte) (k : Nat) (hk : 2 ≤ k) : (dremap v).getLsbD k = false := by
  have hnotLow : ¬ k < 1 ∧ ¬ k - 1 < 1 := by omega
  simp only [dremap, BitVec.getLsbD_append, hnotLow]
  simp

/-- The exchange undoes itself, so twice in a row DREMAP only clears bits 7..2. -/
theorem dremap_dremap (v : Byte) : dremap (dremap v) = v &&& 0x03#8 := by
  apply BitVec.eq_of_getLsbD_eq
  intro i hi
  rcases Nat.lt_or_ge i 2 with hlow | hhigh
  · interval_cases i <;> simp [dremap_low_bits, -BitVec.getLsbD_eq_getElem]
  · rw [dremap_high_bits _ i hhigh]
    interval_cases i <;> simp

/-- Settles O16: the bits by `dremap_low_bits` and `dremap_high_bits`, the second answer by `dremap_dremap`. -/
theorem dremapSwapsBits : Obligations.DremapSwapsBits := by
  intro v s
  obtain ⟨hbit0, hbit1⟩ := dremap_low_bits v
  refine ⟨dremap v, exec_dremap v s, ⟨hbit0, hbit1, dremap_high_bits v⟩, ?_, ?_,
    dremap_dremap v ▸ exec_dremap (dremap v) s, decodeWord_encodeWord (.dremap v)⟩
  · rintro rfl
    decide
  · rintro rfl
    decide

end Sys2Proof.Machine

/-! Proofs about the encoder's loop: ENCODE_AT taken one character at a time, its merge, its count, and the texts that
rule R83 speaks of. -/

namespace Sys2Proof.Machine

/-! ### One character at a time (rules R80, R81) -/

theorem mergeArmed_iff (c : Byte) (cursor : Nat) (buf : Buf) :
    mergeArmed c cursor buf = true ↔ c = 0x31#8 ∧ 0 < cursor ∧ readCell buf (cursor - 1) = 0x01#8 := by
  simp [mergeArmed, and_assoc]

theorem encodes_nil (s : State) (start : Byte) : Encodes s start [] 0x00#8 [] s.buf := by
  simpa [passOf] using encodes_of_passOf (rfl : passOf start [] s = ⟨start.toNat, s.buf, []⟩)

/-- Step 1 of rule R80: a character met at a cursor of 5 or more ends the text. -/
theorem encodes_cons_beyond (s : State) {start : Byte} (c : Byte) (text : List Byte) (hstart : 5 ≤ start.toNat) :
    Encodes s start (c :: text) 0x00#8 [.toolong] s.buf := by
  have hpass : passOf start (c :: text) s = ⟨start.toNat, s.buf, [.toolong]⟩ := encodePass_stops _ _ _ _ _ hstart
  simpa [hpass] using encodes_of_passOf hpass

/-- Below 5 the next start position is one further on, without wrapping. -/
theorem toNat_add_one_of_lt {start : Byte} (hstart : start.toNat < 5) : (start + 1).toNat = start.toNat + 1 := by
  bv_omega

/-! The turns of the loop speak of `s` with the buffer the turn before left, so that a text's turns chain over one
`s`. -/

section
variable {s : State} {start c : Byte} {text : List Byte} {n : Byte} {conditions : List Condition} {b₀ b : Buf}

/-- One turn of the loop of rule R80: what the first character does, then ENCODE_AT of the rest from the buffer it
leaves, `k` cells further on. -/
theorem encodes_cons {k : Byte} {b₁ : Buf} {noreps : List Condition} (hstart : start.toNat < 5)
    (hstep : charStep s.glyphRom s.dotRom c ⟨start.toNat, b₀, []⟩ = ⟨(start + k).toNat, b₁, noreps⟩)
    (hrest : Encodes { s with buf := b₁ } (start + k) text n conditions b) :
    Encodes { s with buf := b₀ } start (c :: text) (n + k) (noreps ++ conditions) b := by
  obtain ⟨-, rfl, rfl⟩ := passOf_of_encodes hrest
  have hnext : (start + k).toNat = start.toNat ∨ (start + k).toNat = start.toNat + 1 := by
    simpa [hstep] using charStep_cursor s.glyphRom s.dotRom c ⟨start.toNat, b₀, []⟩
  have hend : (start + k).toNat + n.toNat = (passOf (start + k) text { s with buf := b₁ }).cursor :=
    start_add_count hrest (by omega)
  have hle : (passOf (start + k) text { s with buf := b₁ }).cursor ≤ 5 :=
    encodePass_cursor_le _ _ _ _ (by dsimp only; omega)
  have hpass : passOf start (c :: text) { s with buf := b₀ } =
      { passOf (start + k) text { s with buf := b₁ } with
        conditions := noreps ++ (passOf (start + k) text { s with buf := b₁ }).conditions } :=
    calc passOf start (c :: text) { s with buf := b₀ }
      _ = encodePass s.glyphRom s.dotRom text ⟨(start + k).toNat, b₁, noreps⟩ :=
          (encodePass_continues _ _ _ _ _ hstart).trans (congrArg _ hstep)
      _ = _ := encodePass_conditions _ _ _ _
  have hcount : BitVec.ofNat 8 ((passOf (start + k) text { s with buf := b₁ }).cursor - start.toNat) = n + k := by
    rw [← hend]
    bv_omega
  exact hcount ▸ encodes_of_passOf hpass

/-- Step 2 of rule R80. -/
theorem encodes_cons_at_colon (hcell : start.toNat = 2)
    (hrest : Encodes { s with buf := writeCell b₀ 2 (dremap (patternIn s.dotRom c)) } (start + 1) text n conditions b) :
    Encodes { s with buf := b₀ } start (c :: text) (n + 1) (norepFor (patternIn s.dotRom c) c 2 ++ conditions) b := by
  refine encodes_cons (by omega) ?_ hrest
  rw [charStep_at_colon _ _ _ _ hcell, toNat_add_one_of_lt (by omega), hcell]
  rfl

/-- Step 3 of rule R80 where the '1' merges. -/
theorem encodes_cons_merging (hstart : start.toNat < 5) (hcell : start.toNat ≠ 2)
    (hmerge : c = 0x31#8 ∧ 0 < start.toNat ∧ readCell b₀ (start.toNat - 1) = 0x01#8)
    (hrest : Encodes { s with buf := writeCell b₀ (start.toNat - 1) (0x01#8 ||| gremap (patternIn s.glyphRom c)) }
      start text n conditions b) :
    Encodes { s with buf := b₀ } start (c :: text) n
      (norepFor (patternIn s.glyphRom c) c start.toNat ++ conditions) b := by
  have harmed : mergeArmed c start.toNat b₀ = true := (mergeArmed_iff _ _ _).mpr hmerge
  obtain ⟨-, -, hprev⟩ := hmerge
  have hstay : start + 0x00#8 = start := BitVec.add_zero start
  have hturn := encodes_cons (s := s) (b₀ := b₀) (k := 0x00#8) (c := c) hstart
    (by rw [charStep_of_merges _ _ _ _ hcell harmed, hprev, hstay]) (hstay.symm ▸ hrest)
  simpa using hturn

/-- Step 3 of rule R80 where nothing merges. -/
theorem encodes_cons_writing (hstart : start.toNat < 5) (hcell : start.toNat ≠ 2)
    (hmerge : ¬ (c = 0x31#8 ∧ 0 < start.toNat ∧ readCell b₀ (start.toNat - 1) = 0x01#8))
    (hrest : Encodes { s with buf := writeCell b₀ start.toNat (gremap (patternIn s.glyphRom c)) }
      (start + 1) text n conditions b) :
    Encodes { s with buf := b₀ } start (c :: text) (n + 1)
      (norepFor (patternIn s.glyphRom c) c start.toNat ++ conditions) b := by
  have hunarmed : mergeArmed c start.toNat b₀ = false :=
    Bool.eq_false_iff.mpr (mt (mergeArmed_iff _ _ _).mp hmerge)
  refine encodes_cons hstart ?_ hrest
  rw [charStep_of_not_merges _ _ _ _ hcell hunarmed, toNat_add_one_of_lt hstart]
  rfl

end

/-- Settles O18: one lemma for each clause; the word is the encoder's. -/
theorem encodeAtOneCharacterAtATime : Obligations.EncodeAtOneCharacterAtATime := by
  intro s start c text
  exact ⟨decodeWord_encodeWord (.encodeAt start text), encodes_nil s start, encodes_cons_beyond s c text,
    fun hcell _ _ _ hrest => encodes_cons_at_colon hcell hrest,
    fun hstart hcell hmerge _ _ _ hrest => encodes_cons_merging hstart hcell hmerge hrest,
    fun hstart hcell hmerge _ _ _ hrest => encodes_cons_writing hstart hcell hmerge hrest⟩

/-- Settles O19: the clauses of the loop for a text of one character, after which the text is empty. -/
theorem skinnyOneMerges : Obligations.SkinnyOneMerges := by
  intro s start c
  refine ⟨fun hstart hcell hmerge => ?_, fun hstart hcell hmerge => ?_, fun hcell => ?_, encodes_cons_beyond s c []⟩
  · obtain ⟨-, -, hprev⟩ := id hmerge
    simpa [hprev] using encodes_cons_merging hstart hcell hmerge (encodes_nil _ start)
  · simpa using encodes_cons_writing hstart hcell hmerge (encodes_nil _ (start + 1))
  · simpa using encodes_cons_at_colon (c := c) hcell (encodes_nil _ (start + 1))

/-- Settles O20: ENCODE is the same function of the state, and its word is the encoder's. -/
theorem encodeIsEncodeAtZero : Obligations.EncodeIsEncodeAtZero :=
  fun s text => ⟨encodeInto 0x00#8 text s, rfl, rfl, decodeWord_encodeWord (.encode text)⟩

/-! ### The count (rules R80, R84) -/

/-- A pass that starts at 5 or more stays where it is. -/
theorem encodePass_cursor_of_beyond (g d : Rom) (text : List Byte) (p : Pass) (h : 5 ≤ p.cursor) :
    (encodePass g d text p).cursor = p.cursor := by
  cases text with
  | nil => rfl
  | cons c text => rw [encodePass_stops g d c text p h]

/-- Each character consumes at most one cell. -/
theorem encodePass_cursor_le_add_length (g d : Rom) (text : List Byte) (p : Pass) :
    (encodePass g d text p).cursor ≤ p.cursor + text.length := by
  induction text generalizing p with
  | nil => rfl
  | cons c text ih =>
    rw [List.length_cons]
    by_cases hend : 5 ≤ p.cursor
    · rw [encodePass_cursor_of_beyond g d _ p hend]
      omega
    · rw [encodePass_continues g d c text p (by omega)]
      have hrest := ih (charStep g d c p)
      rcases charStep_cursor g d c p with hc | hc <;> omega

/-- Settles O17: a pass ends at most at 5 or where it starts, and at most one cell per character further on. -/
theorem encodeAtAnswers : Obligations.EncodeAtAnswers := by
  intro s start text
  have hend : (passOf start text s).cursor ≤ max 5 start.toNat := by
    rcases Nat.le_total start.toNat 5 with hin | hbeyond
    · exact (encodePass_cursor_le _ _ _ _ hin).trans (Nat.le_max_left _ _)
    · exact (encodePass_cursor_of_beyond _ _ _ _ hbeyond).le.trans (Nat.le_max_right _ _)
  have hlength : (passOf start text s).cursor ≤ start.toNat + text.length := encodePass_cursor_le_add_length _ _ _ _
  have hcount : (BitVec.ofNat 8 ((passOf start text s).cursor - start.toNat)).toNat ≤
      (passOf start text s).cursor - start.toNat := by
    rw [BitVec.toNat_ofNat]
    exact Nat.mod_le _ _
  exact ⟨_, _, _, encodes_of_passOf rfl, by omega, by omega⟩

/-! ### Texts of rule R83 -/

@[simp] theorem toolong_notMem_norepFor (pattern c : Byte) (cell : Nat) : .toolong ∉ norepFor pattern c cell := by
  by_cases h : pattern = 0x00#8 <;> simp [norepFor, h]

theorem norepFor_of_ne {pattern : Byte} (h : pattern ≠ 0x00#8) (c : Byte) (cell : Nat) : norepFor pattern c cell = [] :=
  if_neg h

/-- Settles O27: no such character is '1', both remaps keep 0x00, and the two writing clauses of O19 say the rest. -/
theorem unrepresentableCharacterBlanks : Obligations.UnrepresentableCharacterBlanks := by
  intro s start c hstart hout
  obtain ⟨-, hwrite, hcolon, -⟩ := skinnyOneMerges s start c
  have hblank : ∀ rom : Rom, patternIn rom c = 0x00#8 := fun rom => patternIn_of_outOfRange rom c hout
  have hnorep : ∀ cell, norepFor 0x00#8 c cell = [.norep c cell] := fun _ => rfl
  by_cases hcell : start.toNat = 2
  · have hdot : dremap 0x00#8 = 0x00#8 := by decide
    simpa [hblank, hnorep, hdot, hcell] using hcolon hcell
  · have hglyph : gremap 0x00#8 = 0x00#8 := by decide
    have hnotOne : c ≠ 0x31#8 := by
      rintro rfl
      exact absurd hout (by decide)
    simpa [hblank, hnorep, hglyph] using hwrite hstart hcell (fun h => hnotOne h.left)

/-- Five writes, one to each cell, fix the buffer. -/
theorem writeCell_all_cells (buf : Buf) (v0 v1 v2 v3 v4 : Byte) :
    writeCell (writeCell (writeCell (writeCell (writeCell buf 0 v0) 1 v1) 2 v2) 3 v3) 4 v4 = #v[v0, v1, v2, v3, v4] := by
  apply buf_ext
  intro i hi
  interval_cases i <;> simp [readCell_writeCell_ne] <;> rfl

/-- Settles O26: the '1' stands at cell 0, where nothing can merge, so each character takes a cell of its own. -/
theorem twelveThreeFortyFiveFits : Obligations.TwelveThreeFortyFiveFits := by
  intro s g
  have hother : ∀ {c : Byte} {cell : Nat} {buf : Buf}, c ≠ 0x31#8 →
      ¬ (c = 0x31#8 ∧ 0 < cell ∧ readCell buf (cell - 1) = 0x01#8) := fun hc h => hc h.left
  have htext := encodes_cons_writing (s := s) (b₀ := s.buf) (start := 0x00#8) (c := 0x31#8) (by decide) (by decide)
      (fun h => absurd h.right.left (by decide)) <|
    encodes_cons_writing (c := 0x32#8) (by decide) (by decide) (hother (by decide)) <|
    encodes_cons_at_colon (c := 0x33#8) (by decide) <|
    encodes_cons_writing (c := 0x34#8) (by decide) (by decide) (hother (by decide)) <|
    encodes_cons_writing (c := 0x35#8) (by decide) (by decide) (hother (by decide)) <|
    encodes_nil _ _
  rw [← writeCell_all_cells s.buf]
  exact ⟨_, htext, by simp⟩

theorem writeCell_readCell_same (buf : Buf) (i : Nat) : writeCell buf i (readCell buf i) = buf := by
  apply buf_ext
  intro j hj
  by_cases hij : i = j
  · subst hij
    exact readCell_writeCell_same _ _ _ hj
  · exact readCell_writeCell_ne _ _ _ _ hij

/-- The patterns that leave a decimal point alone as it is. -/
theorem one_or_eq_one_iff (q : Byte) : 0x01#8 ||| q = 0x01#8 ↔ q = 0x00#8 ∨ q = 0x01#8 := by
  constructor
  · intro h
    have hhigh : q &&& 0xFE#8 = 0x00#8 := by
      have hmasked : 0xFE#8 &&& (0x01#8 ||| q) = 0xFE#8 &&& 0x01#8 := congrArg _ h
      rw [BitVec.and_or_distrib_left] at hmasked
      simpa [BitVec.and_comm] using hmasked
    rw [eq_bitByte_of_high_bits_zero q hhigh]
    cases q.getLsbD 0
    · exact .inl rfl
    · exact .inr rfl
  · rintro (rfl | rfl) <;> rfl

section
variable {s : State} {b₀ : Buf}

/-- Behind a decimal point any number of '1's merges when the '1' adds no segment to it (rule R83 case k). -/
theorem encodes_ones_after_dot {start : Byte} (m : Nat) (hstart : start.toNat < 5) (hcell : start.toNat ≠ 2)
    (hpos : 0 < start.toNat) (hprev : readCell b₀ (start.toNat - 1) = 0x01#8)
    (hone : 0x01#8 ||| gremap (patternIn s.glyphRom 0x31#8) = 0x01#8) :
    ∃ conditions, Encodes { s with buf := b₀ } start (List.replicate m 0x31#8) 0x00#8 conditions b₀ ∧
      .toolong ∉ conditions := by
  have hkept : writeCell b₀ (start.toNat - 1) (0x01#8 ||| gremap (patternIn s.glyphRom 0x31#8)) = b₀ := by
    rw [hone, ← hprev, writeCell_readCell_same]
  induction m with
  | zero => exact ⟨[], encodes_nil _ start, by simp⟩
  | succ m ih =>
    obtain ⟨conditions, hrest, hfits⟩ := ih
    have hturn := encodes_cons_merging hstart hcell ⟨rfl, hpos, hprev⟩ (by rwa [hkept])
    exact ⟨_, hturn, by simp [hfits]⟩

/-- On a legal table '.' at cell 0 stores the decimal point alone and signals nothing, and the rest follows from
cell 1. -/
theorem encodes_cons_dot_at_zero {text : List Byte} {n : Byte} {conditions : List Condition} {b : Buf}
    (hlegal : LegalGlyphRom s.glyphRom)
    (hrest : Encodes { s with buf := writeCell b₀ 0 0x01#8 } 0x01#8 text n conditions b) :
    Encodes { s with buf := b₀ } 0x00#8 (0x2E#8 :: text) (n + 1) conditions b :=
  encodes_cons (k := 1) (noreps := []) (by decide) (charStep_dot_at_zero _ _ hlegal _) hrest

end

/-- Settles O25: after the decimal point the first '1' merges; the cell then still holds 0x01, and every later one
merges too, exactly when the '1' remaps to 0x00 or 0x01. -/
theorem degenerateOneMergesForever : Obligations.DegenerateOneMergesForever := by
  intro s hlegal q
  have hcell0 : ∀ (b : Buf) (v : Byte), readCell (writeCell b 0 v) 0 = v :=
    fun b v => readCell_writeCell_same b 0 v (by decide)
  refine ⟨fun hq m => ?_, fun hq => ?_⟩
  · obtain ⟨conditions, hones, hfits⟩ := encodes_ones_after_dot (start := 0x01#8) m (by decide) (by decide) (by decide)
      (hcell0 s.buf 0x01#8) ((one_or_eq_one_iff q).mpr hq)
    exact ⟨conditions, encodes_cons_dot_at_zero hlegal hones, hfits⟩
  · have hfound : patternIn s.glyphRom 0x31#8 ≠ 0x00#8 := fun h => hq (.inl (congrArg gremap h))
    have hfull : 0x01#8 ||| q ≠ 0x01#8 := mt (one_or_eq_one_iff q).mp hq
    have htext := encodes_cons_dot_at_zero (b₀ := s.buf) hlegal <|
      encodes_cons_merging (c := 0x31#8) (by decide) (by decide) ⟨rfl, by decide, hcell0 _ _⟩ <|
      encodes_cons_writing (c := 0x31#8) (by decide) (by decide)
        (fun h => hfull ((hcell0 _ _).symm.trans h.right.right)) <|
      encodes_nil _ _
    simpa [norepFor_of_ne hfound, BitVec.or_comm] using htext

end Sys2Proof.Machine

/-! Proofs about the shift-register protocol: what SHIFT_OUT and DRIVE_POSITION send, how long a frame takes, the line
discipline it keeps, and the frame a receiver takes from it. -/

namespace Sys2Proof.Machine

/-! ### A pin writer's answer (rules R19, R90, R91, R117) -/

/-- After SETUP a pin writer sends its events and reports no result. -/
theorem whenConfigured_sends {act : State → State} {es : List Event} {s : State} (hact : act s = emitAll es s)
    (hconf : s.configured = true) : whenConfigured act s =
      { s with pins := linesAfter es s.pins, trace := s.trace ++ es, results := s.results ++ [noResult] } := by
  rw [whenConfigured_of_configured act s hconf, hact, emitAll_eq]
  rfl

/-- Before SETUP a pin writer reports NOTCONF and does nothing else (D18). -/
theorem whenConfigured_refuses (act : State → State) {s : State} (hconf : s.configured = false) :
    whenConfigured act s = { s with results := s.results ++ [⟨0x00#8, false, [.notconf]⟩] } :=
  whenConfigured_of_unconfigured act s hconf

theorem exec_shiftOut (b : Bool) (s : State) : exec (.shiftOut b) s = .next (whenConfigured (shiftBit b) s) := rfl

theorem exec_drivePosition (position bits : Byte) (s : State) :
    exec (.drivePosition position bits) s = .next (whenConfigured (driveFrame position bits) s) := rfl

/-- After SETUP a DRIVE_POSITION sends the trace of rule R94 and reports no result. -/
theorem exec_drivePosition_of_configured (position bits : Byte) (s : State) (hconf : s.configured = true) :
    exec (.drivePosition position bits) s = .next { s with
      pins := linesAfter (driveTrace position bits) s.pins
      trace := s.trace ++ driveTrace position bits
      results := s.results ++ [noResult] } := by
  rw [exec_drivePosition, whenConfigured_sends (driveFrame_eq_emitAll position bits s) hconf]

/-! ### The lines after a frame (rules R90, R91) -/

@[simp] theorem linesAfter_bitTrace (b : Bool) (pins : Pins) :
    linesAfter (bitTrace b) pins = ⟨pins.stb, .low, levelOf b⟩ := rfl

/-- However many bits are sent, the last one decides the lines. -/
theorem linesAfter_bits_concat (bs : List Bool) (b : Bool) (pins : Pins) :
    linesAfter ((bs ++ [b]).flatMap bitTrace) pins = ⟨pins.stb, .low, levelOf b⟩ := by
  induction bs generalizing pins with
  | nil => rfl
  | cons c bs ih => rw [List.cons_append, List.flatMap_cons, linesAfter_append, ih, linesAfter_bitTrace]

/-- The last bit of a colon frame is 0, that of a digit frame is bit 6 of the byte (rules R55, R56). -/
theorem frame_eq_concat (position bits : Byte) : ∃ init,
    frame position bits = init ++ [if position.toNat = 2 then false else bits.getLsbD 6] := by
  by_cases h : position.toNat = 2
  · rw [frame_of_colon position bits h, if_pos h]
    exact ⟨(selectBits position ++ colonData bits).dropLast, rfl⟩
  · rw [frame_of_digit position bits h, if_neg h]
    exact ⟨(selectBits position ++ digitData bits).dropLast, rfl⟩

/-- A frame ends with the strobe and the clock low and its last bit on the data line, whatever the lines were. -/
theorem linesAfter_driveTrace (position bits : Byte) (pins : Pins) :
    linesAfter (driveTrace position bits) pins =
      ⟨.low, .low, levelOf (if position.toNat = 2 then false else bits.getLsbD 6)⟩ := by
  obtain ⟨init, hframe⟩ := frame_eq_concat position bits
  rw [driveTrace, hframe, linesAfter_append, linesAfter_append, linesAfter_bits_concat]
  rfl

/-- Settles O28: the answer by the two lemmas on the pin writers' guard, the word as the encoder packs it. -/
theorem shiftOutSendsOneBit : Obligations.ShiftOutSendsOneBit := by
  intro b s
  refine ⟨fun hconf => ?_, fun hconf => ?_, decodeWord_encodeWord (.shiftOut b)⟩
  · rw [exec_shiftOut, whenConfigured_sends (shiftBit_eq_emitAll b s) hconf, linesAfter_bitTrace]
    rfl
  · rw [exec_shiftOut, whenConfigured_refuses _ hconf]

/-- Settles O32: the answer by the lemmas on the pin writers' guard, the lines by `linesAfter_driveTrace`, the word as
the encoder packs it. -/
theorem drivePositionSendsFrame : Obligations.DrivePositionSendsFrame := by
  intro position bits s
  refine ⟨fun hconf => ?_, fun hconf => ?_, decodeWord_encodeWord (.drivePosition position bits)⟩
  · have hlast : levelOf (if position.toNat = 2 then false else bits.getLsbD 6) =
        if position.toNat = 2 then .low else if bits.getLsbD 6 then .high else .low := by
      split <;> rfl
    rw [exec_drivePosition_of_configured position bits s hconf, linesAfter_driveTrace, hlast]
    rfl
  · rw [exec_drivePosition, whenConfigured_refuses _ hconf]

/-! ### Counts and durations of a frame (rules R94, R151) -/

/-- A frame sends 14 bits between the strobe's events, so a kind of event that every bit sends `n` times is counted
`14 * n` times there. -/
theorem countP_driveTrace (position bits : Byte) (q : Event → Bool) (n : Nat)
    (hbit : ∀ b, (bitTrace b).countP q = n) : (driveTrace position bits).countP q =
      14 * n + ([Event.pin .STB false] ++ [Event.pin .STB true, Event.waitBit, Event.pin .STB false]).countP q := by
  have hbits : ((frame position bits).flatMap bitTrace).countP q = 14 * n := by
    simp only [List.countP_flatMap, Function.comp_def, hbit, List.map_const', List.sum_replicate, frame_length,
      smul_eq_mul]
  rw [driveTrace, List.countP_append, List.countP_append, List.countP_append, hbits]
  omega

theorem minDuration_append (d : Nat) (as bs : List Event) :
    minDuration d (as ++ bs) = minDuration d as + minDuration d bs := by
  simp [minDuration]

theorem minDuration_bitTrace (d : Nat) (b : Bool) : minDuration d (bitTrace b) = 3 * d := by
  have hsum : minDuration d (bitTrace b) = 0 + (d + (0 + (d + (0 + (d + 0))))) := rfl
  omega

theorem minDuration_bits (d : Nat) (bs : List Bool) : minDuration d (bs.flatMap bitTrace) = bs.length * (3 * d) := by
  induction bs with
  | nil => simp [minDuration]
  | cons b bs ih =>
    rw [List.flatMap_cons, minDuration_append, minDuration_bitTrace, ih, List.length_cons]
    ring

/-- Three bit-delays for each of the 14 bits, and one while the strobe is high. -/
theorem minDuration_driveTrace (d : Nat) (position bits : Byte) : minDuration d (driveTrace position bits) = 43 * d := by
  have hlow : minDuration d [.pin .STB false] = 0 := rfl
  have hpulse : minDuration d [.pin .STB true, .waitBit, .pin .STB false] = 0 + (d + (0 + 0)) := rfl
  rw [driveTrace, minDuration_append, minDuration_append, minDuration_bits, frame_length, hlow, hpulse]
  omega

/-- The bit-delay in use is not below its minimum (rule R6). -/
theorem tBitMin_le_tBit : Config.tBitMin ≤ Config.tBit := Nat.le_add_right _ _

/-- Settles O33: each count by `countP_driveTrace` from what one bit sends, the duration by `minDuration_driveTrace`. -/
theorem drivePositionTraceSize : Obligations.DrivePositionTraceSize := by
  intro position bits s hconf
  refine ⟨_, driveTrace position bits, exec_drivePosition_of_configured position bits s hconf, rfl, rfl,
    driveTrace_length position bits, countP_driveTrace position bits _ 0 (by decide),
    countP_driveTrace position bits _ 1 (by decide), countP_driveTrace position bits _ 2 (by decide),
    countP_driveTrace position bits _ 1 (by decide), countP_driveTrace position bits _ 3 (by decide),
    minDuration_driveTrace Config.tBit position bits, ?_⟩
  rw [minDuration_driveTrace]
  have hmin : 300 ≤ Config.tBit := tBitMin_le_tBit
  omega

/-! ### The line discipline of a frame (rule R95) -/

/-- The watcher after a bit of a frame: three bit-delays since the data line was written, one since the clock fell, and
the strobe not yet raised. -/
def watchAfterBit (b : Bool) : Watch := ⟨⟨.low, .low, levelOf b⟩, some 3, some 1, none⟩

/-- A bit keeps the discipline at the start of a frame and behind another bit. -/
theorem disciplined_bitTrace_append (b : Bool) (dat : Level) (sinceDat sinceFall : Option Nat) (es : List Event)
    (hfall : sinceFall = none ∨ sinceFall = some 1) :
    disciplined ⟨⟨.low, .low, dat⟩, sinceDat, sinceFall, none⟩ (bitTrace b ++ es) =
      disciplined (watchAfterBit b) es := by
  rcases hfall with rfl | rfl
  · rfl
  · rfl

/-- What follows a bit of a frame keeps the discipline: more bits, then the strobe pulse. -/
theorem disciplined_after_bit (c : Bool) (bs : List Bool) :
    disciplined (watchAfterBit c) (bs.flatMap bitTrace ++ [.pin .STB true, .waitBit, .pin .STB false]) = true := by
  induction bs generalizing c with
  | nil => rfl
  | cons b bs ih =>
    rw [List.flatMap_cons, List.append_assoc, watchAfterBit, disciplined_bitTrace_append b _ _ _ _ (.inr rfl)]
    exact ih b

/-- The strobe may be taken low whatever it was; the first bit then finds the clock low and not yet fallen. -/
theorem disciplined_driveTrace (position bits : Byte) (pins : Pins) (hclk : pins.clk = .low) :
    disciplined (watchFrom pins) (driveTrace position bits) = true := by
  obtain ⟨stb, clk, dat⟩ := pins
  obtain rfl : clk = .low := hclk
  obtain ⟨b, bs, hframe⟩ := List.exists_cons_of_length_eq_add_one (frame_length position bits)
  have hstart (es : List Event) : disciplined (watchFrom ⟨stb, .low, dat⟩) (.pin .STB false :: es) =
      disciplined ⟨⟨.low, .low, dat⟩, none, none, none⟩ es := by
    cases stb <;> rfl
  rw [driveTrace, hframe, List.flatMap_cons, List.append_assoc, List.append_assoc, List.singleton_append, hstart,
    disciplined_bitTrace_append b dat none none _ (.inl rfl)]
  exact disciplined_after_bit b bs

/-- Settles O34: the discipline by `disciplined_driveTrace`, the lines at the end by `linesAfter_driveTrace`. -/
theorem drivePositionIsDisciplined : Obligations.DrivePositionIsDisciplined := by
  intro position bits s hconf hclk
  refine ⟨_, driveTrace position bits, exec_drivePosition_of_configured position bits s hconf, rfl,
    disciplined_driveTrace position bits s.pins hclk, ?_, ?_⟩
  · simp [linesAfter_driveTrace]
  · simp [linesAfter_driveTrace]

/-! ### The frame that is received (rules R93, R97) -/

/-- The last 14 queued bits are the frame just sent, whatever was queued before. -/
theorem lastFrame_append_of_length {f : Frame} (queue : Frame) (hf : f.length = 14) : lastFrame (queue ++ f) = f := by
  simp [lastFrame, hf]

section
variable (clock : ClockReading) (strobe : StrobeReading) (queue latch : Frame) (frames : List Frame) (dat : Level)

/-- One bit sent while the strobe is low is queued once, whichever clock edge samples it. -/
theorem observe_bitTrace (b : Bool) :
    (bitTrace b).foldl (observe clock strobe) ⟨⟨.low, .low, dat⟩, queue, latch, frames⟩ =
      ⟨⟨.low, .low, levelOf b⟩, queue ++ [levelOf b], latch, frames⟩ := by
  cases clock with
  | rising => cases strobe <;> rfl
  | falling => cases strobe <;> rfl

theorem observe_bits (bs : List Bool) : ∃ dat',
    (bs.flatMap bitTrace).foldl (observe clock strobe) ⟨⟨.low, .low, dat⟩, queue, latch, frames⟩ =
      ⟨⟨.low, .low, dat'⟩, queue ++ bs.map levelOf, latch, frames⟩ := by
  induction bs generalizing dat queue with
  | nil => exact ⟨dat, by simp⟩
  | cons b bs ih =>
    obtain ⟨dat', hbs⟩ := ih (queue ++ [levelOf b]) (levelOf b)
    refine ⟨dat', ?_⟩
    rw [List.flatMap_cons, List.foldl_append, observe_bitTrace, hbs]
    simp

/-- A strobe pulse emits the last 14 queued bits once, whenever in the pulse they are latched. -/
theorem observe_strobePulse : ∃ latch',
    [Event.pin .STB true, .waitBit, .pin .STB false].foldl (observe clock strobe)
        ⟨⟨.low, .low, dat⟩, queue, latch, frames⟩ =
      ⟨⟨.low, .low, dat⟩, [], latch', frames ++ [lastFrame queue]⟩ := by
  cases strobe with
  | rising => exact ⟨latch, by cases clock <;> rfl⟩
  | level => exact ⟨lastFrame queue, by cases clock <;> rfl⟩
  | falling => exact ⟨latch, by cases clock <;> rfl⟩

end

/-- The fall of the strobe with which a frame begins emits nothing, unless it ends a high level that the reading
latches. -/
theorem observe_strobeLow (clock : ClockReading) (strobe : StrobeReading) (r : Receiver)
    (hstb : strobe = .rising ∨ r.pins.stb ≠ .high) :
    observe clock strobe r (.pin .STB false) = { r with pins := ⟨.low, r.pins.clk, r.pins.dat⟩ } := by
  have hqueue : samples clock r.pins (.pin .STB false) = false := by cases clock <;> rfl
  rcases hstb with rfl | hstb
  · simp [observe, hqueue, observeStrobe, strobeRises, eventPins, setPin, levelOf]
  · have hfalls : strobeFalls r.pins (.pin .STB false) = false := by simp [strobeFalls, hstb]
    cases strobe <;>
      simp [observe, hqueue, observeStrobe, strobeRises, hfalls, eventPins, setPin, levelOf]

/-- A receiver that has seen the clock low takes exactly one more frame from a DRIVE_POSITION's trace, and has seen the
clock and the strobe low at its end. -/
theorem observe_driveTrace (clock : ClockReading) (strobe : StrobeReading) (r : Receiver) (position bits : Byte)
    (hclk : r.pins.clk = .low) (hstb : strobe = .rising ∨ r.pins.stb ≠ .high) : ∃ dat latch,
      (driveTrace position bits).foldl (observe clock strobe) r =
        ⟨⟨.low, .low, dat⟩, [], latch, r.frames ++ [(frame position bits).map levelOf]⟩ := by
  obtain ⟨dat, hbits⟩ := observe_bits clock strobe r.queue r.latch r.frames r.pins.dat (frame position bits)
  obtain ⟨latch, hpulse⟩ := observe_strobePulse clock strobe (r.queue ++ (frame position bits).map levelOf) r.latch
    r.frames dat
  have hlow : [.pin .STB false].foldl (observe clock strobe) r =
      ⟨⟨.low, .low, r.pins.dat⟩, r.queue, r.latch, r.frames⟩ := by
    rw [List.foldl_cons, List.foldl_nil, observe_strobeLow clock strobe r hstb, hclk]
  have hlast : lastFrame (r.queue ++ (frame position bits).map levelOf) = (frame position bits).map levelOf :=
    lastFrame_append_of_length _ (by simp)
  refine ⟨dat, latch, ?_⟩
  rw [driveTrace, List.foldl_append, List.foldl_append, hlow, hbits, hpulse, hlast]

/-- Settles O35: the receiver's start has nothing queued and no frame, so that `observe_driveTrace` gives the one frame. -/
theorem drivePositionDeliversFrame : Obligations.DrivePositionDeliversFrame := by
  intro position bits s hconf
  refine ⟨_, driveTrace position bits, exec_drivePosition_of_configured position bits s hconf, rfl,
    fun clock strobe => ⟨fun hclk hstb => ?_, fun hclk => if_neg hclk⟩⟩
  obtain ⟨dat, latch, hobserve⟩ := observe_driveTrace clock strobe ⟨s.pins, [], [], []⟩ position bits hclk hstb
  rw [receivedFrames, if_pos hclk, hobserve]
  rfl

end Sys2Proof.Machine

/-! Proofs about refresh and configuration: what a REFRESH sends, how many events that is, the frames a receiver takes
from it, and what the configuration operations store without an effect on any other operation. -/

namespace Sys2Proof.Machine

/-! ### The configuration operations (rules R102, R103, R104) -/

theorem exec_setup (s : State) :
    exec .setup s = .next { s with configured := true, results := s.results ++ [noResult] } := rfl

theorem exec_setIntensity (level : Byte) (s : State) :
    exec (.setIntensity level) s = .next { s with intensity := level, results := s.results ++ [noResult] } := rfl

theorem exec_setOn (enable : Bool) (s : State) :
    exec (.setOn enable) s = .next { s with on := enable, results := s.results ++ [noResult] } := rfl

/-- Settles O39: a configured block already holds the value that SETUP writes. -/
theorem setupConfigures : Obligations.SetupConfigures := by
  intro s
  refine ⟨exec_setup s, fun hconf => ?_, decodeWord_encodeWord .setup⟩
  rw [exec_setup, ← hconf]
  rfl

/-- Settles O40: the answer is `exec_setIntensity`, the word as the encoder packs it. -/
theorem setIntensityStores : Obligations.SetIntensityStores :=
  fun level s => ⟨exec_setIntensity level s, decodeWord_encodeWord (.setIntensity level)⟩

/-- Settles O41: the answer is `exec_setOn`, the word as the encoder packs it. -/
theorem setOnStores : Obligations.SetOnStores :=
  fun enable s => ⟨exec_setOn enable s, decodeWord_encodeWord (.setOn enable)⟩

/-! ### Inertness (rule R105) -/

/-- A pin writer that sends the same events whatever `intensity` and `on` are does the same and keeps them. -/
theorem whenConfigured_withConfiguration {act : State → State} {es : List Event} {s : State} (level : Byte)
    (enable : Bool) (hact : act s = emitAll es s)
    (hact' : act { s with intensity := level, on := enable } =
      emitAll es { s with intensity := level, on := enable }) :
    whenConfigured act { s with intensity := level, on := enable } =
      { whenConfigured act s with intensity := level, on := enable } := by
  obtain hconf | hconf := Bool.eq_false_or_eq_true s.configured
  · rw [whenConfigured_sends hact hconf, whenConfigured_sends hact' hconf]
  · rw [whenConfigured_refuses act hconf,
      whenConfigured_refuses act (s := { s with intensity := level, on := enable }) hconf]

/-- No operation reads `intensity` or `on`: with other values there beforehand it leaves everything else the same. -/
theorem exec_withConfiguration {i : Instr} {s t : State} (level : Byte) (enable : Bool) (hexec : exec i s = .next t) :
    ∃ level' enable', exec i { s with intensity := level, on := enable } =
      .next { t with intensity := level', on := enable' } := by
  cases i with
  | setIntensity l => cases hexec; exact ⟨l, enable, rfl⟩
  | setOn o => cases hexec; exact ⟨level, o, rfl⟩
  | shiftOut b =>
    cases hexec
    exact ⟨level, enable, congrArg _ (whenConfigured_withConfiguration level enable (shiftBit_eq_emitAll b _)
      (shiftBit_eq_emitAll b _))⟩
  | drivePosition p b =>
    cases hexec
    exact ⟨level, enable, congrArg _ (whenConfigured_withConfiguration level enable (driveFrame_eq_emitAll p b _)
      (driveFrame_eq_emitAll p b _))⟩
  | refresh =>
    cases hexec
    exact ⟨level, enable, congrArg _ (whenConfigured_withConfiguration level enable (redraw_eq_emitAll _)
      (redraw_eq_emitAll _))⟩
  | _ => cases hexec; exact ⟨level, enable, rfl⟩

/-- Settles O42: the two runs differ only in `intensity` and `on` (`exec_withConfiguration`). -/
theorem configurationIsInert : Obligations.ConfigurationIsInert := by
  intro i s level enable
  obtain ⟨t, -, -, hexec, -⟩ := exec_reports i s
  obtain ⟨level', enable', hexec'⟩ := exec_withConfiguration level enable hexec
  exact ⟨t, _, hexec, hexec', rfl, rfl, rfl, rfl, rfl⟩

/-! ### Counts over a redraw (rule R100) -/

/-- Each pass sends a frame and its settle delay. -/
theorem countP_passesTrace (buf : Buf) (i : Nat) (ds : List Nat) (q : Event → Bool) (n : Nat)
    (hframe : ∀ position bits, (driveTrace position bits).countP q = n) :
    (passesTrace buf i ds).countP q = ds.length * n + (ds.map Event.waitUs).countP q := by
  induction ds generalizing i with
  | nil => simp [passesTrace]
  | cons d ds ih =>
    simp only [passesTrace, List.countP_append, hframe, ih, List.map_cons, List.countP_cons, List.countP_nil,
      List.length_cons]
    ring

theorem countP_refreshTrace (buf : Buf) (q : Event → Bool) (n : Nat)
    (hframe : ∀ position bits, (driveTrace position bits).countP q = n) :
    (refreshTrace buf).countP q = 6 * n + (Config.settle.map Event.waitUs).countP q := by
  have hpasses : Config.settle.length = 5 := rfl
  rw [refreshTrace, List.countP_append, hframe, countP_passesTrace buf 0 Config.settle q n hframe, hpasses]
  omega

/-! ### The lines and the frames of a redraw (rules R93, R97, R100) -/

/-- The blank frame comes last, and its last bit is 0. -/
theorem linesAfter_refreshTrace (buf : Buf) (pins : Pins) :
    linesAfter (refreshTrace buf) pins = ⟨.low, .low, .low⟩ := by
  rw [refreshTrace, linesAfter_append, linesAfter_driveTrace]
  rfl

/-- The frames of `n` passes from position `i` on. -/
def passFrames (buf : Buf) (i n : Nat) : List (List Bool) :=
  (List.range' i n).map (fun k => frame (BitVec.ofNat 8 k) (readCell buf k))

theorem passFrames_succ (buf : Buf) (i n : Nat) :
    passFrames buf i (n + 1) = frame (BitVec.ofNat 8 i) (readCell buf i) :: passFrames buf (i + 1) n := rfl

/-- A settle delay after a frame, when the strobe is low, shows a receiver nothing. -/
theorem observe_waitUs (clock : ClockReading) (strobe : StrobeReading) (d : Nat) (r : Receiver)
    (hstb : r.pins.stb = .low) : observe clock strobe r (.waitUs d) = r := by
  have hqueue : samples clock r.pins (.waitUs d) = false := by cases clock <;> rfl
  cases strobe <;> simp [observe, hqueue, observeStrobe, strobeRises, strobeFalls, eventPins, hstb]

/-- A receiver takes one frame from each pass, and can take a frame after them as it could before. -/
theorem observe_passesTrace (clock : ClockReading) (strobe : StrobeReading) (buf : Buf) (i : Nat) (ds : List Nat)
    (r : Receiver) (hclk : r.pins.clk = .low) (hstb : strobe = .rising ∨ r.pins.stb ≠ .high) : ∃ r',
      (passesTrace buf i ds).foldl (observe clock strobe) r = r' ∧
      r'.pins.clk = .low ∧ (strobe = .rising ∨ r'.pins.stb ≠ .high) ∧
      r'.frames = r.frames ++ (passFrames buf i ds.length).map (List.map levelOf) := by
  induction ds generalizing i r with
  | nil => exact ⟨r, rfl, hclk, hstb, (List.append_nil _).symm⟩
  | cons d ds ih =>
    obtain ⟨dat, latch, hframe⟩ :=
      observe_driveTrace clock strobe r (BitVec.ofNat 8 i) (readCell buf i) hclk hstb
    obtain ⟨r', hrest, hclk', hstb', hframes⟩ := ih (i + 1) ⟨⟨.low, .low, dat⟩, [], latch,
      r.frames ++ [(frame (BitVec.ofNat 8 i) (readCell buf i)).map levelOf]⟩ rfl (.inr nofun)
    refine ⟨r', ?_, hclk', hstb', ?_⟩
    · rw [passesTrace, List.foldl_append, List.foldl_append, hframe, List.foldl_cons, List.foldl_nil,
        observe_waitUs clock strobe d _ rfl, hrest]
    · rw [hframes, List.length_cons, passFrames_succ, List.map_cons, List.append_assoc, List.singleton_append]

/-- A receiver takes the five cells' frames and then the blank frame from a REFRESH. -/
theorem receivedFrames_refreshTrace (clock : ClockReading) (strobe : StrobeReading) (buf : Buf) (pins : Pins)
    (hclk : pins.clk = .low) (hstb : strobe = .rising ∨ pins.stb ≠ .high) :
    receivedFrames clock strobe pins (refreshTrace buf) =
      some ((passFrames buf 0 5 ++ [List.replicate 14 false]).map (List.map levelOf)) := by
  obtain ⟨r, hpasses, hclk', hstb', hframes⟩ :=
    observe_passesTrace clock strobe buf 0 Config.settle ⟨pins, [], [], []⟩ hclk hstb
  obtain ⟨dat, latch, hblank⟩ := observe_driveTrace clock strobe r Config.blankPos 0x00#8 hclk' hstb'
  rw [receivedFrames, if_pos hclk, refreshTrace, List.foldl_append, hpasses, hblank, hframes, List.map_append]
  rfl

/-! ### REFRESH (rule R100) -/

theorem exec_refresh (s : State) : exec .refresh s = .next (whenConfigured redraw s) := rfl

/-- Settles O36: the six frames and five delays are `refreshTrace`; the lines, the counts and the received frames are
those of that trace. -/
theorem refreshRedraws : Obligations.RefreshRedraws := by
  intro s es
  have htrace : es = refreshTrace s.buf := by
    simp only [es, refreshTrace, passesTrace, List.append_assoc, List.nil_append]
  rw [htrace]
  refine ⟨fun hconf => ?_, fun hconf => ?_, decodeWord_encodeWord .refresh, jobTrace_length .refresh s.buf,
    countP_refreshTrace s.buf _ 43 (fun position bits => countP_driveTrace position bits _ 3 (by decide)),
    countP_refreshTrace s.buf _ 0 (fun position bits => countP_driveTrace position bits _ 0 (by decide)),
    fun hclk clock strobe hstb => receivedFrames_refreshTrace clock strobe s.buf s.pins hclk hstb⟩
  · rw [exec_refresh, whenConfigured_sends (redraw_eq_emitAll s) hconf, linesAfter_refreshTrace]
    rfl
  · rw [exec_refresh, whenConfigured_refuses redraw hconf]

end Sys2Proof.Machine

/-! Proofs about refusals and conditions: an operation refused with ILLEGAL or NOTCONF, and the NOREPs and the TOOLONG
that a text signals. -/

namespace Sys2Proof.Machine

/-! ### ILLEGAL (rules R64, R116) -/

/-- No line of rule R59 is a word that rule R64 calls illegal. -/
theorem Denotes.not_illegalWord {w : CommandWord} {text : List Byte} {i : Instr} (h : Denotes text w i) :
    ¬ IllegalWord w := by
  cases h with
  | setOn e | shiftOut e => cases e <;> simp [IllegalWord, bitByte]
  | _ => simp [IllegalWord]

/-- The decoder gives an illegal word no operation: what it decodes stands in the table of rule R59. -/
theorem decodeWord_of_illegalWord {w : CommandWord} (text : List Byte) (hillegal : IllegalWord w) :
    ∃ reason, decodeWord w text = .error reason := by
  cases hdecode : decodeWord w text with
  | error reason => exact ⟨reason, rfl⟩
  | ok i => exact absurd hillegal (denotes_of_decodeWord hdecode).not_illegalWord

/-- An idle block that holds an illegal word takes it with its text and reports ILLEGAL (rule R116). -/
theorem step_of_fetch_illegal {s : State} {reason : IllegalReason} {rest : List Byte} (hready : Ready s)
    (hfetch : fetch s.pending = .illegal reason rest) :
    step s = .next { s with pending := rest, results := s.results ++ [⟨0x00#8, false, [.illegal]⟩] } := by
  obtain ⟨hidle, hnoReset⟩ := hready
  simp [step, hidle, hnoReset, hfetch, complete]

/-- Settles O6: the decoder has no operation for the word, and the port gives it up with its text. -/
theorem illegalWordIsRefused : Obligations.IllegalWordIsRefused := by
  intro s w text rest hready hillegal hlen hpending
  obtain ⟨reason, hdecode⟩ := decodeWord_of_illegalWord text hillegal
  have hfetch : fetch s.pending = .illegal reason rest := by
    rw [hpending, fetch_bytes w text rest hlen, hdecode]
  exact step_of_fetch_illegal hready hfetch

/-! ### NOTCONF (rule R117) -/

/-- Settles O29: each of the three is guarded by `whenConfigured`, which refuses. -/
theorem pinWritersNeedSetup : Obligations.PinWritersNeedSetup := by
  intro s hconf i hwriter
  rcases hwriter with ⟨b, rfl⟩ | ⟨position, bits, rfl⟩ | rfl
  · rw [exec_shiftOut, whenConfigured_refuses _ hconf]
  · rw [exec_drivePosition, whenConfigured_refuses _ hconf]
  · rw [exec_refresh, whenConfigured_refuses _ hconf]

/-! ### The conditions of a text (rules R80, R112, R113, R114) -/

/-- The condition is a NOREP for a character of `text`, met at a cell from `start` to 4 (rule R112). -/
def NorepOf (text : List Byte) (start : Nat) (k : Condition) : Prop :=
  ∃ c cell, k = .norep c cell ∧ c ∈ text ∧ start ≤ cell ∧ cell < 5

theorem norepOf_head (c : Byte) (text : List Byte) {cell : Nat} (hcell : cell < 5) :
    NorepOf (c :: text) cell (.norep c cell) :=
  ⟨c, cell, rfl, List.mem_cons_self, le_rfl, hcell⟩

theorem NorepOf.cons {text : List Byte} {start start' : Nat} {k : Condition} (h : NorepOf text start' k) (c : Byte)
    (hle : start ≤ start') : NorepOf (c :: text) start k := by
  obtain ⟨c', cell, rfl, hmem, hstart, hcell⟩ := h
  exact ⟨c', cell, rfl, List.mem_cons_of_mem c hmem, hle.trans hstart, hcell⟩

theorem not_norepOf_toolong (text : List Byte) (start : Nat) : ¬ NorepOf text start .toolong := by
  rintro ⟨c, cell, hnorep, -⟩
  cases hnorep

/-- A pass adds NOREPs, and behind them one TOOLONG only where it leaves the cursor at 5 or more. -/
theorem encodePass_adds_noreps_toolong (g d : Rom) (text : List Byte) (p : Pass) : ∃ noreps last,
    (encodePass g d text p).conditions = p.conditions ++ (noreps ++ last) ∧
    (∀ k ∈ noreps, NorepOf text p.cursor k) ∧
    (last = [] ∨ last = [.toolong] ∧ 5 ≤ (encodePass g d text p).cursor) := by
  induction text generalizing p with
  | nil => exact ⟨[], [], by simp, by simp, .inl rfl⟩
  | cons c text ih =>
    by_cases hend : 5 ≤ p.cursor
    · rw [encodePass_stops g d c text p hend]
      exact ⟨[], [.toolong], rfl, by simp, .inr ⟨rfl, hend⟩⟩
    · rw [encodePass_continues g d c text p (by omega)]
      obtain ⟨noreps, last, hconds, hnoreps, hlast⟩ := ih (charStep g d c p)
      have hcursor : p.cursor ≤ (charStep g d c p).cursor := by
        rcases charStep_cursor g d c p with hc | hc <;> omega
      have hlater : ∀ k ∈ noreps, NorepOf (c :: text) p.cursor k := fun k hk => (hnoreps k hk).cons c hcursor
      rcases charStep_conditions g d c p with hstep | hstep
      · exact ⟨noreps, last, by rw [hconds, hstep], hlater, hlast⟩
      · exact ⟨.norep c p.cursor :: noreps, last, by simp [hconds, hstep],
          List.forall_mem_cons.mpr ⟨norepOf_head c text (by omega), hlater⟩, hlast⟩

/-- The conditions that an ENCODE_AT answers, from those of its pass. -/
theorem conditions_of_encodes {s : State} {start : Byte} {text : List Byte} {n : Byte} {conditions : List Condition}
    {b : Buf} (h : Encodes s start text n conditions b) : ∃ noreps last, conditions = noreps ++ last ∧
    (∀ k ∈ noreps, NorepOf text start.toNat k) ∧
    (last = [] ∨ last = [.toolong] ∧ 5 ≤ (passOf start text s).cursor) := by
  obtain ⟨-, rfl, -⟩ := passOf_of_encodes h
  exact encodePass_adds_noreps_toolong s.glyphRom s.dotRom text ⟨start.toNat, s.buf, []⟩

/-- Settles O22: `conditions_of_encodes`. -/
theorem norepsPrecedeTooLong : Obligations.NorepsPrecedeTooLong := by
  intro s start text n conditions b h
  obtain ⟨noreps, last, hconds, hnoreps, hlast⟩ := conditions_of_encodes h
  exact ⟨noreps, last, hconds, hlast.imp_right And.left, hnoreps⟩

theorem toolong_mem_charStep_iff (g d : Rom) (c : Byte) (p : Pass) :
    .toolong ∈ (charStep g d c p).conditions ↔ .toolong ∈ p.conditions := by
  rcases charStep_conditions g d c p with hstep | hstep <;> simp [hstep]

/-- A pass signals TOOLONG when some proper beginning of its text already brings the cursor to 5 or more: the part
before the character that is then met (rule R113). -/
theorem toolong_mem_encodePass_iff (g d : Rom) (text : List Byte) (p : Pass) (hnone : .toolong ∉ p.conditions) :
    .toolong ∈ (encodePass g d text p).conditions ↔
      ∃ k < text.length, 5 ≤ (encodePass g d (text.take k) p).cursor := by
  induction text generalizing p with
  | nil => simp [hnone]
  | cons c text ih =>
    rw [List.length_cons, Nat.exists_lt_succ_left]
    by_cases hend : 5 ≤ p.cursor
    · simp [encodePass_stops g d c text p hend, hend]
    · have hbelow : p.cursor < 5 := by omega
      have hrest := ih (charStep g d c p) (mt (toolong_mem_charStep_iff g d c p).mp hnone)
      simpa [encodePass_continues g d c _ p hbelow, hend] using hrest

/-- The count leads to 5 or more exactly when the cursor does, whether or not the text starts in the buffer. -/
theorem five_le_start_add_count_iff {s : State} {start : Byte} {text : List Byte} {n : Byte}
    {conditions : List Condition} {b : Buf} (h : Encodes s start text n conditions b) :
    5 ≤ start.toNat + n.toNat ↔ 5 ≤ (passOf start text s).cursor := by
  rcases Nat.le_total start.toNat 5 with hin | hbeyond
  · rw [start_add_count h hin]
  · have hmono : start.toNat ≤ (passOf start text s).cursor :=
      encodePass_cursor_mono _ _ text ⟨start.toNat, s.buf, []⟩
    exact iff_of_true (by omega) (by omega)

/-- Settles O23: when it is signalled by `toolong_mem_encodePass_iff`, how often and with which count by
`conditions_of_encodes`, since no NOREP is a TOOLONG. -/
theorem tooLongExactly : Obligations.TooLongExactly := by
  intro s start text n conditions b h
  have hbeginning : .toolong ∈ conditions ↔ ∃ k < text.length, 5 ≤ (passOf start (text.take k) s).cursor := by
    obtain ⟨-, rfl, -⟩ := passOf_of_encodes h
    exact toolong_mem_encodePass_iff _ _ text _ List.not_mem_nil
  obtain ⟨noreps, last, rfl, hnoreps, hlast⟩ := conditions_of_encodes h
  have hnotNorep : .toolong ∉ noreps := fun hmem => not_norepOf_toolong _ _ (hnoreps _ hmem)
  refine ⟨hbeginning.trans ⟨?_, ?_⟩, ?_, fun hmem => (five_le_start_add_count_iff h).mpr ?_⟩
  · rintro ⟨k, hk, hend⟩
    have hencodes := encodes_of_passOf (rfl : passOf start (text.take k) s = _)
    exact ⟨k, _, _, _, hk, hencodes, (five_le_start_add_count_iff hencodes).mpr hend⟩
  · rintro ⟨k, n', conditions', b', hk, hencodes, hend⟩
    exact ⟨k, hk, (five_le_start_add_count_iff hencodes).mp hend⟩
  · rcases hlast with rfl | ⟨rfl, -⟩ <;> simp [List.count_eq_zero_of_not_mem hnotNorep]
  · rcases hlast with rfl | ⟨rfl, hend⟩
    · exact absurd (by simpa using hmem) hnotNorep
    · exact hend

end Sys2Proof.Machine

/-! Proofs about reset and hazards: the reset event of an idle block, the five frames of a REFRESH that no starting
level can spoil, and the least time each operation takes. -/

namespace Sys2Proof.Machine

/-! ### The reset event (rules R25, R130) -/

/-- An idle block takes a reset that was asked for before any command (rule R130, log 9). -/
theorem step_of_resetRequest {s : State} (hidle : s.busy = false) (hasked : s.resetRequest = true) :
    step s = .next (applyReset s) := by
  simp [step, hidle, hasked]

/-- Settles O48: the step is `applyReset`; its cells by `readCell_bufAtReset`, its other fields as it writes or keeps
them. -/
theorem resetEvent : Obligations.ResetEvent :=
  fun _ hidle hasked => ⟨_, step_of_resetRequest hidle hasked, readCell_bufAtReset,
    rfl, rfl, rfl, rfl, rfl, rfl, rfl, rfl, rfl⟩

/-! ### A REFRESH after its first frame (rules R100, R137) -/

/-- What a REFRESH sends after the frame of position 0: that frame's settle delay, the four other passes, the blank
frame. -/
def laterTrace (buf : Buf) : List Event :=
  .waitUs 5000 :: (passesTrace buf 1 [2000, 2000, 2000, 5000] ++ driveTrace Config.blankPos 0x00#8)

theorem refreshTrace_eq_first_later (buf : Buf) :
    refreshTrace buf = driveTrace 0#8 (readCell buf 0) ++ laterTrace buf := by
  rw [refreshTrace, Config.settle, passesTrace, laterTrace, List.append_assoc, List.append_assoc]
  rfl

/-- A settle delay before which the strobe is low adds nothing to what is received. -/
theorem receivedFrames_waitUs_cons (clock : ClockReading) (strobe : StrobeReading) (d : Nat) {pins : Pins}
    (es : List Event) (hstb : pins.stb = .low) :
    receivedFrames clock strobe pins (.waitUs d :: es) = receivedFrames clock strobe pins es := by
  rw [receivedFrames, List.foldl_cons, observe_waitUs clock strobe d ⟨pins, [], [], []⟩ hstb, receivedFrames]

/-- A receiver takes one frame from each of any run of passes, and the blank frame behind them. -/
theorem receivedFrames_passesTrace_blank (clock : ClockReading) (strobe : StrobeReading) (buf : Buf) (i : Nat)
    (ds : List Nat) {pins : Pins} (hclk : pins.clk = .low) (hstb : strobe = .rising ∨ pins.stb ≠ .high) :
    receivedFrames clock strobe pins (passesTrace buf i ds ++ driveTrace Config.blankPos 0x00#8) =
      some ((passFrames buf i ds.length ++ [List.replicate 14 false]).map (List.map levelOf)) := by
  obtain ⟨r, hpasses, hclk', hstb', hframes⟩ :=
    observe_passesTrace clock strobe buf i ds ⟨pins, [], [], []⟩ hclk hstb
  obtain ⟨dat, latch, hblank⟩ := observe_driveTrace clock strobe r Config.blankPos 0x00#8 hclk' hstb'
  rw [receivedFrames, if_pos hclk, List.foldl_append, hpasses, hblank, hframes, List.map_append]
  rfl

/-- Between its first frame and the rest of a REFRESH the clock and the strobe are low, so that every reading receives
the frames of positions 1 to 4 and the blank frame. -/
theorem receivedFrames_laterTrace (clock : ClockReading) (strobe : StrobeReading) (buf : Buf) {pins : Pins}
    (hclk : pins.clk = .low) (hstb : pins.stb = .low) :
    receivedFrames clock strobe pins (laterTrace buf) =
      some ((passFrames buf 1 4 ++ [List.replicate 14 false]).map (List.map levelOf)) := by
  have hlow : strobe = .rising ∨ pins.stb ≠ .high := .inr (by simp [hstb])
  rw [laterTrace, receivedFrames_waitUs_cons clock strobe 5000 _ hstb,
    receivedFrames_passesTrace_blank clock strobe buf 1 _ hclk hlow]
  rfl

/-- Settles O37: the first 88 events are the frame of position 0, which ends with the clock and the strobe low
whatever the lines were (`linesAfter_driveTrace`); the rest is `laterTrace`. -/
theorem refreshDeliversLaterFrames : Obligations.RefreshDeliversLaterFrames := by
  intro s hconf
  obtain ⟨t, hexec, htrace, -⟩ := exec_refresh_of_configured s hconf
  have hlines := linesAfter_driveTrace 0#8 (readCell s.buf 0) s.pins
  have hclk : (linesAfter (driveTrace 0#8 (readCell s.buf 0)) s.pins).clk = .low := by rw [hlines]
  have hstb : (linesAfter (driveTrace 0#8 (readCell s.buf 0)) s.pins).stb = .low := by rw [hlines]
  exact ⟨t, driveTrace 0#8 (readCell s.buf 0), laterTrace s.buf, hexec, refreshTrace_eq_first_later s.buf ▸ htrace,
    driveTrace_length _ _, hclk, hstb,
    fun clock strobe => receivedFrames_laterTrace clock strobe s.buf hclk hstb⟩

/-! ### The least time of an operation (rules R101, R134, R150, R151) -/

theorem minDuration_waitUs (d n : Nat) : minDuration d [.waitUs n] = n * Config.tUnit := by
  simp [minDuration, eventDuration]

/-- Each pass takes a frame's 43 bit-delays and its settle delay. -/
theorem minDuration_passesTrace (d : Nat) (buf : Buf) (i : Nat) (ds : List Nat) :
    minDuration d (passesTrace buf i ds) = ds.length * (43 * d) + ds.sum * Config.tUnit := by
  induction ds generalizing i with
  | nil => simp [passesTrace, minDuration]
  | cons n ds ih =>
    rw [passesTrace, minDuration_append, minDuration_append, minDuration_driveTrace, minDuration_waitUs, ih,
      List.length_cons, List.sum_cons]
    ring

/-- Six frames and 16000 microseconds of settle delays. -/
theorem minDuration_refreshTrace (d : Nat) (buf : Buf) :
    minDuration d (refreshTrace buf) = 16000000 + 258 * d := by
  have hpasses : Config.settle.length = 5 := rfl
  have hsettle : Config.settle.sum * Config.tUnit = 16000000 := rfl
  rw [refreshTrace, minDuration_append, minDuration_passesTrace, minDuration_driveTrace, hpasses, hsettle]
  omega

/-- The events an operation of a configured block sends: none but a pin writer's (rules R10, R90, R94, R100). -/
def sentEvents (i : Instr) (buf : Buf) : List Event :=
  match i with
  | .shiftOut b => bitTrace b
  | .drivePosition position bits => driveTrace position bits
  | .refresh => refreshTrace buf
  | _ => []

theorem exec_sentEvents (i : Instr) (s : State) (hconf : s.configured = true) : ∃ t,
    exec i s = .next t ∧ t.trace = s.trace ++ sentEvents i s.buf := by
  cases i with
  | shiftOut b => exact ⟨_, congrArg Host.Outcome.next (whenConfigured_sends (shiftBit_eq_emitAll b s) hconf), rfl⟩
  | drivePosition position bits => exact ⟨_, exec_drivePosition_of_configured position bits s hconf, rfl⟩
  | refresh =>
    obtain ⟨t, hexec, htrace, -⟩ := exec_refresh_of_configured s hconf
    exact ⟨t, hexec, htrace⟩
  | _ => exact ⟨_, rfl, (List.append_nil _).symm⟩

/-- Settles O43: the new trace is `sentEvents`, whose duration is that of a bit, a frame, a redraw or nothing. -/
theorem minimumDurations : Obligations.MinimumDurations := by
  refine ⟨tBitMin_le_tBit, fun i s hconf => ?_⟩
  obtain ⟨t, hexec, htrace⟩ := exec_sentEvents i s hconf
  refine ⟨t, sentEvents i s.buf, hexec, htrace, fun d => ⟨?_, ?_⟩⟩
  · cases i with
    | shiftOut b => exact minDuration_bitTrace d b
    | drivePosition position bits => exact minDuration_driveTrace d position bits
    | refresh => exact minDuration_refreshTrace d s.buf
    | _ => rfl
  · rintro rfl
    exact minDuration_refreshTrace 300 s.buf

end Sys2Proof.Machine
